-- ==== Sys2Proof/Word.lean ====
section
/-! DEFINITION. The Word: the machine's only data type (00_scope.md R8). -/

namespace Sys2Proof

/-- A Word, a 64-bit two's complement number (R8, decision D1). The mathematical integer the rules
speak of is its signed value `w.toInt`. -/
abbrev Word := BitVec 64

/-- `WORD_MIN` of R8. -/
def wordMin : Int := -9223372036854775808

/-- `WORD_MAX` of R8. -/
def wordMax : Int := 9223372036854775807

end Sys2Proof
end

