-- ==== Sys2Proof/Syntax.lean ====
section
/-! DEFINITION. Instructions as syntax: the ten rows of the opcode map (30_encoding.md R66). -/

namespace Sys2Proof

/-- The three addressing modes (R63). -/
inductive Mode where
  /-- Digit 0: the operand word is an address. -/
  | position
  /-- Digit 1: the operand word is the value. -/
  | immediate
  /-- Digit 2: the operand word plus the relative base is an address. -/
  | relative
  deriving DecidableEq, Repr

/-- An operand: the mode digit's meaning and the whole operand word (R60, R75). -/
structure Operand where
  mode : Mode
  word : Word
  deriving DecidableEq, Repr

/-- The instructions. Operands stand in the order of their operand words; `dest` is the write operand,
always the last one (R65). Digits that R71 calls ignored are no part of an instruction. -/
inductive Instr where
  /-- ADD, opcode 1 (R120). -/
  | add (a b dest : Operand)
  /-- MUL, opcode 2 (R121). -/
  | mul (a b dest : Operand)
  /-- IN, opcode 3 (R130). -/
  | inp (dest : Operand)
  /-- OUT, opcode 4 (R131). -/
  | out (a : Operand)
  /-- JNZ, opcode 5 (R140). -/
  | jnz (a b : Operand)
  /-- JZ, opcode 6 (R141). -/
  | jz (a b : Operand)
  /-- LT, opcode 7 (R150). -/
  | lt (a b dest : Operand)
  /-- EQ, opcode 8 (R151). -/
  | eq (a b dest : Operand)
  /-- ARB, opcode 9 (R160). -/
  | arb (a : Operand)
  /-- HLT, opcode 99 (R161). -/
  | hlt
  deriving DecidableEq, Repr

/-- The ten operations of the opcode map (R66). -/
inductive Opcode where
  | add | mul | inp | out | jnz | jz | lt | eq | arb | hlt
  deriving DecidableEq, Repr

end Sys2Proof
end

