-- ==== Sys2Proof/WellFormed.lean ====
section
/-! DEFINITION. Which instructions have an encoding: no destination is Immediate (30_encoding.md R72). -/

namespace Sys2Proof

/-- A write operand may be Position or Relative (R65, R72). -/
def Operand.writable (o : Operand) : Bool :=
  match o.mode with
  | .position => true
  | .immediate => false
  | .relative => true

/-- The check R72 makes of each instruction that has a write operand; the others have none. -/
def Instr.wellFormed : Instr → Bool
  | .add _ _ dest => dest.writable
  | .mul _ _ dest => dest.writable
  | .inp dest => dest.writable
  | .out _ => true
  | .jnz _ _ => true
  | .jz _ _ => true
  | .lt _ _ dest => dest.writable
  | .eq _ _ dest => dest.writable
  | .arb _ => true
  | .hlt => true

/-- The instructions the decoder can give. -/
abbrev Instr.WellFormed (i : Instr) : Prop := i.wellFormed = true

end Sys2Proof
end

