-- ==== Sys2Proof/Decode.lean ====
section
/-! DEFINITION. The instruction decoder as a function from Words (30_encoding.md R60 to R76), and the
encoder from the same tables (R81). The decimal helpers of 00_scope.md R9 to R11 stand first. -/

namespace Sys2Proof

/-! ## The integer helpers -/

/-- `wrap64` of R9: the one Word congruent to `z` modulo `2^64`. -/
def wrap64 (z : Int) : Word := BitVec.ofInt 64 z

/-- `tdiv` of R10: the quotient rounded toward zero. -/
def tdiv (a b : Int) : Int := Int.tdiv a b

/-- `trem` of R10. -/
def trem (a b : Int) : Int := a - b * tdiv a b

/-- `digit` of R11: the decimal digit of weight `10^k`. -/
def digit (z : Int) (k : Nat) : Int := trem (tdiv z (10 ^ k)) 10

/-! ## The opcode map -/

/-- The opcode number of each operation (R66). -/
def Opcode.code : Opcode → Int
  | .add => 1
  | .mul => 2
  | .inp => 3
  | .out => 4
  | .jnz => 5
  | .jz => 6
  | .lt => 7
  | .eq => 8
  | .arb => 9
  | .hlt => 99

/-- The operation an opcode number names, if any (R66): no other number is an opcode (R68). -/
def Opcode.ofCode (c : Int) : Option Opcode :=
  if c = 1 then some .add
  else if c = 2 then some .mul
  else if c = 3 then some .inp
  else if c = 4 then some .out
  else if c = 5 then some .jnz
  else if c = 6 then some .jz
  else if c = 7 then some .lt
  else if c = 8 then some .eq
  else if c = 9 then some .arb
  else if c = 99 then some .hlt
  else none

/-- `operand_count` (R64): a function of the opcode alone. -/
def Opcode.operandCount : Opcode → Nat
  | .add => 3
  | .mul => 3
  | .inp => 1
  | .out => 1
  | .jnz => 2
  | .jz => 2
  | .lt => 3
  | .eq => 3
  | .arb => 1
  | .hlt => 0

/-- The width in Words, `1 + n` (R64). -/
def Opcode.width (op : Opcode) : Nat := 1 + op.operandCount

/-- `dest_index` (R65): the number of the write operand. -/
def Opcode.destIndex : Opcode → Option Nat
  | .add => some 3
  | .mul => some 3
  | .inp => some 1
  | .out => none
  | .jnz => none
  | .jz => none
  | .lt => some 3
  | .eq => some 3
  | .arb => none
  | .hlt => none

/-- The digit of each mode (R63). -/
def Mode.code : Mode → Nat
  | .position => 0
  | .immediate => 1
  | .relative => 2

/-- The mode a digit selects; digits 3 to 9 select none (R63, R70). -/
def Mode.ofDigit (d : Nat) : Option Mode :=
  if d = 0 then some .position
  else if d = 1 then some .immediate
  else if d = 2 then some .relative
  else none

/-! ## The decoder of one instruction word (R67) -/

/-- The three faults `Decode(W)` raises (R67). -/
inductive DecodeFault where
  /-- The two low digits name no operation (R68, R69). -/
  | unknownOpcode (code : Int)
  /-- A used mode digit is 3 to 9 (R70). -/
  | invalidMode (k digit : Nat)
  /-- The write operand is Immediate (R72). -/
  | invalidWriteTarget (k : Nat)
  deriving DecidableEq, Repr

/-- The decoded record of R67: the operation and the three mode digits as they stand in the word, those of operands
the instruction does not have included. `n`, the width and `d` are functions of the operation (R64, R65). -/
structure Head where
  op : Opcode
  m1 : Nat
  m2 : Nat
  m3 : Nat
  deriving DecidableEq, Repr

/-- The opcode field `trem(W, 100)` (R61). -/
def opcodeField (w : Word) : Int := trem w.toInt 100

/-- The mode digit of operand `k`, the digit of weight `10^(k+1)` (R62). -/
def modeDigit (w : Word) (k : Nat) : Nat := (digit w.toInt (k + 1)).toNat

/-- The record of a word with the operation `op`: its digits, not yet tested (R62, R67). -/
def Head.ofWord (w : Word) (op : Opcode) : Head :=
  { op := op, m1 := modeDigit w 1, m2 := modeDigit w 2, m3 := modeDigit w 3 }

/-- The mode digit of operand `k` in the record. -/
def Head.digit (h : Head) (k : Nat) : Nat :=
  if k = 1 then h.m1 else if k = 2 then h.m2 else h.m3

/-- The test of one mode digit: above 2 on an operand the instruction has, it is `InvalidMode` (R70); the digit of
an absent operand is not validated (R71). -/
def checkMode (h : Head) (k : Nat) : Except DecodeFault Unit :=
  if k ≤ h.op.operandCount ∧ 2 < h.digit k then .error (.invalidMode k (h.digit k)) else .ok ()

/-- The last test of R67: the write operand's digit is not 1, Immediate (R72). -/
def checkDest (h : Head) : Except DecodeFault Head :=
  match h.op.destIndex with
  | none => .ok h
  | some d => if h.digit d = 1 then .error (.invalidWriteTarget d) else .ok h

/-- The tests of a record: the mode digits in ascending operand number, then the write operand (R67). -/
def checkHead (h : Head) : Except DecodeFault Head := do
  checkMode h 1
  checkMode h 2
  checkMode h 3
  checkDest h

/-- `Decode(W)` (R67): the opcode first, then the mode digits, then the write operand. -/
def decodeHead (w : Word) : Except DecodeFault Head :=
  match Opcode.ofCode (opcodeField w) with
  | none => .error (.unknownOpcode (opcodeField w))
  | some op => checkHead (Head.ofWord w op)

/-- The mode of operand `k` (R63). The decoder returns no record with a digit above 2 on an operand the instruction
has (R70), and no other digit is used: what stands for it here is never looked at (log 16). -/
def Head.mode (h : Head) (k : Nat) : Mode := (Mode.ofDigit (h.digit k)).getD .position

/-- The instruction a record and its operand words make: only the `n` operands it has, their modes and the first `n`
words are looked at (R60, R71). -/
def Head.instr (h : Head) (ps : List Word) : Instr :=
  let a : Operand := { mode := h.mode 1, word := ps.getD 0 0 }
  let b : Operand := { mode := h.mode 2, word := ps.getD 1 0 }
  let c : Operand := { mode := h.mode 3, word := ps.getD 2 0 }
  match h.op with
  | .add => .add a b c
  | .mul => .mul a b c
  | .inp => .inp a
  | .out => .out a
  | .jnz => .jnz a b
  | .jz => .jz a b
  | .lt => .lt a b c
  | .eq => .eq a b c
  | .arb => .arb a
  | .hlt => .hlt

/-! ## The decoder of a sequence of Words -/

/-- Why a sequence of Words does not begin with an instruction. -/
inductive DecodeError where
  /-- The instruction word is illegal. -/
  | illegal (f : DecodeFault)
  /-- Word `k` of the instruction is not there: 0 the instruction word, `k` operand word `k`. -/
  | missing (k : Nat)
  deriving DecidableEq, Repr

/-- The instruction at the front of a sequence of Words, with the Words after it (R60). -/
def decode : List Word → Except DecodeError (Instr × List Word)
  | [] => .error (.missing 0)
  | w :: rest =>
    match decodeHead w with
    | .error f => .error (.illegal f)
    | .ok h =>
      if rest.length < h.op.operandCount then .error (.missing (rest.length + 1))
      else .ok (h.instr rest, rest.drop h.op.operandCount)

/-! ## The encoder (R81) -/

/-- The operation of an instruction. -/
def Instr.op : Instr → Opcode
  | .add _ _ _ => .add
  | .mul _ _ _ => .mul
  | .inp _ => .inp
  | .out _ => .out
  | .jnz _ _ => .jnz
  | .jz _ _ => .jz
  | .lt _ _ _ => .lt
  | .eq _ _ _ => .eq
  | .arb _ => .arb
  | .hlt => .hlt

/-- The operands of an instruction in ascending operand number. -/
def Instr.operands : Instr → List Operand
  | .add a b d => [a, b, d]
  | .mul a b d => [a, b, d]
  | .inp d => [d]
  | .out a => [a]
  | .jnz a b => [a, b]
  | .jz a b => [a, b]
  | .lt a b d => [a, b, d]
  | .eq a b d => [a, b, d]
  | .arb a => [a]
  | .hlt => []

/-- The write operand of an instruction with its operand number (R65). -/
def Instr.dest : Instr → Option (Nat × Operand)
  | .add _ _ d => some (3, d)
  | .mul _ _ d => some (3, d)
  | .inp d => some (1, d)
  | .out _ => none
  | .jnz _ _ => none
  | .jz _ _ => none
  | .lt _ _ d => some (3, d)
  | .eq _ _ d => some (3, d)
  | .arb _ => none
  | .hlt => none

/-- The mode digits of the operands, the first one of the weight given. -/
def modesValue (weight : Int) : List Operand → Int
  | [] => 0
  | o :: os => weight * (o.mode.code : Int) + modesValue (10 * weight) os

/-- `opcode + 100*m1 + 1000*m2 + 10000*m3` (R81), every ignored digit 0: the canonical word of R71. -/
def Instr.headValue (i : Instr) : Int := i.op.code + modesValue 100 i.operands

/-- The Words of an instruction: its instruction word, then its operand words in order (R60, R81). -/
def encode (i : Instr) : List Word := wrap64 i.headValue :: i.operands.map Operand.word

/-! ## The opcode table's words -/

/-- The four Words (the longest instruction's) whose bits are `w`, the first Word the lowest 64 bits, bits
above `nbits` zero (log 11). -/
def tableWords (nbits w : Nat) : List Word :=
  (List.range 4).map fun k => BitVec.ofNat 64 (w % 2 ^ nbits / 2 ^ (64 * k))

/-- The instruction the decoder reads from an instruction whose bits are `w`. -/
def decodeTableWord (nbits w : Nat) : Option Instr :=
  match decode (tableWords nbits w) with
  | .ok (i, _) => some i
  | .error _ => none

end Sys2Proof
end

