-- ==== Sys2Proof/Machine/Flags.lean ====
section
/-! DEFINITION. The integer ALU (41_arithmetic.md R123) and its truth values. The machine has NO flags, no
carry and no overflow bit (10_state.md R23): a comparison is a Word in memory and a jump tests a Word. -/

namespace Sys2Proof.Machine

/-- Add with wrap (R120, R122). -/
def aluAdd (x y : Word) : Word := wrap64 (x.toInt + y.toInt)

/-- Signed multiply keeping the low 64 bits (R121, R122). -/
def aluMul (x y : Word) : Word := wrap64 (x.toInt * y.toInt)

/-- The Word of a truth value: 1 for true, 0 for false (44_compare.md R152). -/
def truthWord (b : Bool) : Word := if b then 1 else 0

/-- Signed less-than (R150). -/
def aluLt (x y : Word) : Word := truthWord (decide (x.toInt < y.toInt))

/-- Equality of whole Words (R151). -/
def aluEq (x y : Word) : Word := truthWord (decide (x.toInt = y.toInt))

/-- The test for zero of JNZ and JZ, on the whole Word (R140, R141). -/
def isZero (x : Word) : Bool := decide (x.toInt = 0)

end Sys2Proof.Machine
end

