-- ==== Sys2Proof/Config.lean ====
section
/-! DEFINITION. The two parameters a model takes as arguments (00_scope.md R7). -/

namespace Sys2Proof

/-- The implementation parameters of R7. They are plain data that a State carries and no step changes,
so a statement about every state holds for every depth (log 2). -/
structure Config where
  /-- `MEM_DEPTH`: the number of Words in the memory array. -/
  memDepth : Nat
  /-- `INQ_DEPTH`: the capacity of the input queue in Words; `none` is unbounded. -/
  inqDepth : Option Nat
  deriving DecidableEq, Repr

/-- The defaults of R7: 65536 Words of memory, an unbounded queue. -/
def Config.default : Config := { memDepth := 65536, inqDepth := none }

/-- The bounds R7 sets: `1 <= MEM_DEPTH <= 2^62`, and `INQ_DEPTH >= 1` where it is bounded. -/
abbrev Config.WellFormed (c : Config) : Prop :=
  1 ≤ c.memDepth ∧ c.memDepth ≤ 2 ^ 62 ∧ c.inqDepth ≠ some 0

end Sys2Proof
end

