-- ==== Sys2Proof/Machine/State.lean ====
section
/-! DEFINITION. The state of the machine (10_state.md R21 to R32), what a step can stop with, and reset. -/

namespace Sys2Proof.Machine

/-- The five fault causes of R200 with their information (R201). A fault's ENTRY is described by the spec
(R206), so the machine takes it: the cause goes into `runState` and the step answers a next state. No step
answers `Host.Outcome.fault`; the type is closed, and each cause says who raises it (log 3). -/
inductive Fault where
  /-- Raised by the address check of a Position or Relative operand, and by a taken jump, on `a < 0`
  (R202). As the spec says, so neither safe nor unsafe: no difference from the hardware. -/
  | negativeAddress (a : Int)
  /-- Raised by the decoder when the two low digits name no operation (R203). As the spec says; the code
  of a negative word is the one R69 gives (log 17: unsafe). -/
  | unknownOpcode (code : Int)
  /-- Raised by the decoder when write operand `k` is Immediate (R204). As the spec says. -/
  | invalidWriteTarget (k : Nat)
  /-- Raised by any access, fetches included, at `a >= MEM_DEPTH` (R205). As the spec says. -/
  | addressOverflow (a : Int)
  /-- Raised by the decoder when a used mode digit is 3 to 9 (R207). As the spec says. -/
  | invalidMode (k digit : Nat)
  deriving DecidableEq, Repr

/-- What a step may refuse. -/
inductive Refusal where
  /-- Raised by an arm of `exec` that gives its instruction no meaning; safe. No arm does. -/
  | notModelled (mnemonic : String)
  deriving DecidableEq, Repr

/-- The run-state register (R26). -/
inductive RunState where
  | running
  | halted
  | faulted (cause : Fault)
  deriving DecidableEq, Repr

/-- The four outcomes of a run transaction (R172). -/
inductive RunOutcome where
  | halted
  | needsInput
  | output (v : Word)
  | fault (cause : Fault)
  deriving DecidableEq, Repr

/-- Why a host action is refused; a refusal changes nothing of the core and records no core fault. -/
inductive HostError where
  /-- The image is longer than the memory (R243). -/
  | loadOverflow
  /-- An entry of the image is outside the Word range (R80). -/
  | entryNotWord
  /-- A push to a full queue (R176). -/
  | queueFull
  /-- A peek outside the memory (R179). -/
  | noSuchCell
  deriving DecidableEq, Repr

/-- What the host may ask (R177). -/
inductive HostAction where
  /-- `Reset(image)` (R240), asked for when no run transaction is in progress. -/
  | reset (image : List Int)
  /-- `Reset(image)` that cuts the run transaction in progress short after `steps` more steps (R177);
  where none is in progress it is an ordinary reset (log 8). -/
  | resetCutting (steps : Nat) (image : List Int)
  /-- `Push(v)` (R176). -/
  | push (v : Word)
  /-- `Run()` (R171). -/
  | run
  /-- `Peek(a)` (R179). -/
  | peek (a : Int)
  deriving DecidableEq, Repr

/-- What the core hands back to the host. -/
inductive HostReply where
  /-- The end of a run transaction (R172). -/
  | outcome (o : RunOutcome)
  /-- A reset or a push took effect (R181). -/
  | accepted
  /-- A host action was refused. -/
  | refused (why : HostError)
  /-- The Word a peek read (R179). -/
  | word (v : Word)
  deriving DecidableEq, Repr

/-- The memory array: the cells that do not hold 0, as (word address, Word) pairs with strictly rising
addresses. A cell that is not listed reads 0, the value of a cell no store has written (R45, R241; log 1). -/
abbrev Memory := List (Nat × Word)

/-- The machine: the core, and the host that drives it (R170). -/
structure State where
  /-- `MEM_DEPTH` and `INQ_DEPTH` (R7); no step changes them. -/
  cfg : Config
  /-- The instruction pointer, a natural number (R21). -/
  ip : Nat
  /-- The relative base (R22). -/
  rb : Word
  /-- The memory (R24). -/
  mem : Memory
  /-- The input queue, head first (R25). -/
  inq : List Word
  /-- The run-state register (R26). -/
  runState : RunState
  /-- A run transaction is in progress (R171, R181). -/
  busy : Bool
  /-- The host's side: the actions it will ask for, first one first (log 4). -/
  requests : List HostAction
  /-- The host's side: what it was handed, oldest first (log 4). -/
  replies : List HostReply
  deriving DecidableEq, Repr

/-- The machine after `Reset([])` with the default parameters (R32, R240): the empty program is allowed
(R243), so every cell reads 0. The host has asked for nothing and was handed nothing. -/
def State.reset : State where
  cfg := Config.default
  ip := 0
  rb := 0
  mem := []
  inq := []
  runState := .running
  busy := false
  requests := []
  replies := []

end Sys2Proof.Machine
end

