-- ==== Sys2Proof/Machine/Ops.lean ====
section
/-! DEFINITION. The named operations over memory, registers and the host's side, and fault entry. -/

namespace Sys2Proof.Machine

/-! ## The memory array -/

/-- What a cell that is not listed reads as (20_memory.md R45). -/
def Memory.unlisted : Word := 0

/-- `mem[a]` (R14). -/
def Memory.read : Memory → Nat → Word
  | [], _ => Memory.unlisted
  | (b, v) :: m, a => if b = a then v else Memory.read m a

/-- The memory without an entry for `a`. -/
def Memory.dropCell (m : Memory) (a : Nat) : Memory := m.filter fun c => c.1 ≠ a

/-- The entry `(a, v)` put in front of the first greater address. -/
def Memory.putCell : Memory → Nat → Word → Memory
  | [], a, v => [(a, v)]
  | c :: m, a, v => if a < c.1 then (a, v) :: c :: m else c :: Memory.putCell m a v

/-- `mem[a] <- v`; writing what an unlisted cell reads as removes the entry. -/
def Memory.write (m : Memory) (a : Nat) (v : Word) : Memory :=
  if v = Memory.unlisted then m.dropCell a else (m.dropCell a).putCell a v

/-- The canonical form: addresses strictly rising and no entry equal to what an unlisted cell reads as. -/
def Memory.wf : Memory → Bool
  | [] => true
  | [(_, v)] => decide (v ≠ Memory.unlisted)
  | (a, v) :: (b, w) :: m => decide (v ≠ Memory.unlisted) && decide (a < b) && Memory.wf ((b, w) :: m)

/-- The memory that holds the Words of a list from address `a` upward and 0 elsewhere (R240, R241). -/
def Memory.load : Nat → List Word → Memory
  | _, [] => []
  | a, v :: vs => if v = Memory.unlisted then Memory.load (a + 1) vs else (a, v) :: Memory.load (a + 1) vs

/-! ## The registers -/

/-- `mem[a] <- v` on the state. -/
def State.store (s : State) (a : Nat) (v : Word) : State := { s with mem := s.mem.write a v }

/-- `ip <- n`. -/
def State.setIp (s : State) (n : Nat) : State := { s with ip := n }

/-- `ip <- ip + width` (R99); the sum is exact (R21). -/
def State.advance (s : State) (width : Nat) : State := s.setIp (s.ip + width)

/-- `rb <- w`. -/
def State.setRb (s : State) (w : Word) : State := { s with rb := w }

/-- `inq <- q`. -/
def State.setInq (s : State) (q : List Word) : State := { s with inq := q }

/-- `run_state <- r`. -/
def State.setRunState (s : State) (r : RunState) : State := { s with runState := r }

/-- The `busy` flag (R181). -/
def State.setBusy (s : State) (b : Bool) : State := { s with busy := b }

/-- What the host will ask for next. -/
def State.setRequests (s : State) (rs : List HostAction) : State := { s with requests := rs }

/-- Something is handed to the host. -/
def State.reply (s : State) (r : HostReply) : State := { s with replies := s.replies ++ [r] }

/-- `emit E` (R14), and the other ways a run transaction ends: it is no longer in progress and its one
outcome is handed to the host (R171, R172). -/
def State.endRun (s : State) (o : RunOutcome) : State := (s.setBusy false).reply (.outcome o)

/-! ## Taking a fault -/

/-- The state `raise F(info)` leaves (60_exceptions.md R206): `run_state <- Faulted(F(info))`, the run
transaction returns `Fault(F(info))`, and nothing else of the core changes. There is no handler, no saved
register and no return from a fault (R209); the way out is `Reset(image)` (`State.hostReset`). -/
def State.faultWith (s : State) (f : Fault) : State := (s.setRunState (.faulted f)).endRun (.fault f)

/-- The end of a step (R15): every check passed and all writes are committed, or one fault is raised on the
state the step began with and nothing else is committed. -/
def State.commit (s : State) (r : Except Fault State) : Host.Outcome State Fault Refusal :=
  match r with
  | .ok t => .next t
  | .error f => .next (s.faultWith f)

/-! ## Checked memory access -/

/-- `CheckAddr(a)` (20_memory.md R41), `a` any integer; the answer is the cell it names. -/
def checkAddr (s : State) (a : Int) : Except Fault Nat :=
  if a < 0 then .error (.negativeAddress a)
  else if (s.cfg.memDepth : Int) ≤ a then .error (.addressOverflow a)
  else .ok a.toNat

/-- `MemRead(a)` (R42). -/
def memRead (s : State) (a : Int) : Except Fault Word :=
  match checkAddr s a with
  | .ok n => .ok (s.mem.read n)
  | .error f => .error f

/-- `MemWrite(a, v)` (R43). -/
def memWrite (s : State) (a : Int) (v : Word) : Except Fault State :=
  match checkAddr s a with
  | .ok n => .ok (s.store n v)
  | .error f => .error f

end Sys2Proof.Machine
end

