-- ==== Sys2Proof/Machine/Operands.lean ====
section
/-! DEFINITION. The address resolver (40_step_and_operands.md R94 to R98). -/

namespace Sys2Proof.Machine

/-- The effective address of a Position or Relative operand; an Immediate operand has none. The sum is the
exact sum of two Words, never wrapped (R97). -/
def effectiveAddr (s : State) (o : Operand) : Option Int :=
  match o.mode with
  | .position => some o.word.toInt
  | .immediate => none
  | .relative => some (o.word.toInt + s.rb.toInt)

/-- The value of a read operand (R95): Immediate bypasses the memory and cannot fault. -/
def readOperand (s : State) (o : Operand) : Except Fault Word :=
  match effectiveAddr s o with
  | none => .ok o.word
  | some e => memRead s e

/-- The checked cell of write operand `k` (R96); the cell is not read. `InvalidWriteTarget` is the
decoder's fault (R72); a meaning handed an Immediate destination raises it too (log 13). -/
def writeAddr (s : State) (k : Nat) (o : Operand) : Except Fault Nat :=
  match effectiveAddr s o with
  | none => .error (.invalidWriteTarget k)
  | some e => checkAddr s e

/-- A three-operand instruction (R91): both read operands in order, then the destination's address; the
one write is the commit. All reads see the state as the step began (R101). -/
def storeBinary (f : Word → Word → Word) (a b dest : Operand) (s : State) : Except Fault State := do
  let v1 ← readOperand s a
  let v2 ← readOperand s b
  let d3 ← writeAddr s 3 dest
  .ok ((s.store d3 (f v1 v2)).advance 4)

/-- A conditional jump (R91, R98, R142): both operands are resolved whether or not the jump is taken; only
a taken jump looks at the sign of its target, and none compares it with `MEM_DEPTH`. -/
def jumpIf (taken : Word → Bool) (a b : Operand) (s : State) : Except Fault State := do
  let v1 ← readOperand s a
  let v2 ← readOperand s b
  if taken v1 then
    if v2.toInt < 0 then .error (.negativeAddress v2.toInt) else .ok (s.setIp v2.toInt.toNat)
  else .ok (s.advance 3)

end Sys2Proof.Machine
end

