-- ==== Sys2Proof/Machine/Arithmetic.lean ====
section
/-! DEFINITION. ADD and MUL (41_arithmetic.md). -/

namespace Sys2Proof.Machine

/-- ADD (R120): `mem[d3] <- wrap64(v1 + v2)`, `ip <- ip + 4`. -/
def execAdd (a b dest : Operand) (s : State) : Host.Outcome State Fault Refusal :=
  s.commit (storeBinary aluAdd a b dest s)

/-- MUL (R121): `mem[d3] <- wrap64(v1 * v2)`, `ip <- ip + 4`. -/
def execMul (a b dest : Operand) (s : State) : Host.Outcome State Fault Refusal :=
  s.commit (storeBinary aluMul a b dest s)

end Sys2Proof.Machine
end

