-- ==== Sys2Proof/Machine/Compare.lean ====
section
/-! DEFINITION. LT and EQ (44_compare.md). -/

namespace Sys2Proof.Machine

/-- LT (R150): `mem[d3] <- (1 if v1 < v2 else 0)`, `ip <- ip + 4`. -/
def execLt (a b dest : Operand) (s : State) : Host.Outcome State Fault Refusal :=
  s.commit (storeBinary aluLt a b dest s)

/-- EQ (R151): `mem[d3] <- (1 if v1 = v2 else 0)`, `ip <- ip + 4`. -/
def execEq (a b dest : Operand) (s : State) : Host.Outcome State Fault Refusal :=
  s.commit (storeBinary aluEq a b dest s)

end Sys2Proof.Machine
end

