-- ==== Sys2Proof/Machine/Io.lean ====
section
/-! DEFINITION. IN and OUT (42_io.md). -/

namespace Sys2Proof.Machine

/-- What IN does once its destination is checked (R130): an empty queue ends the run transaction with
`NeedsInput` and changes nothing of the core; else the head goes to the cell and leaves the queue. -/
def takeInput (s : State) (d1 : Nat) : State :=
  match s.inq with
  | [] => s.endRun .needsInput
  | v :: rest => ((s.store d1 v).setInq rest).advance 2

/-- IN (R130): the destination is checked before the queue is looked at. -/
def execInp (dest : Operand) (s : State) : Host.Outcome State Fault Refusal :=
  s.commit do
    let d1 ← writeAddr s 1 dest
    .ok (takeInput s d1)

/-- OUT (R131): `ip` advances, then the run transaction ends with `Output(v1)`. -/
def execOut (a : Operand) (s : State) : Host.Outcome State Fault Refusal :=
  s.commit do
    let v1 ← readOperand s a
    .ok ((s.advance 2).endRun (.output v1))

end Sys2Proof.Machine
end

