-- ==== Sys2Proof/Machine/Jumps.lean ====
section
/-! DEFINITION. JNZ and JZ (43_jumps.md). -/

namespace Sys2Proof.Machine

/-- JNZ (R140): `ip <- v2` if `v1` is not zero, else `ip <- ip + 3`. -/
def execJnz (a b : Operand) (s : State) : Host.Outcome State Fault Refusal :=
  s.commit (jumpIf (fun v => !isZero v) a b s)

/-- JZ (R141): `ip <- v2` if `v1` is zero, else `ip <- ip + 3`. -/
def execJz (a b : Operand) (s : State) : Host.Outcome State Fault Refusal :=
  s.commit (jumpIf isZero a b s)

end Sys2Proof.Machine
end

