-- ==== Sys2Proof/Machine/RelBaseHalt.lean ====
section
/-! DEFINITION. ARB and HLT (45_relbase_halt.md). -/

namespace Sys2Proof.Machine

/-- ARB (R160): `rb <- wrap64(rb + v1)`, `ip <- ip + 2`; a Relative operand is read with the old `rb`. -/
def execArb (a : Operand) (s : State) : Host.Outcome State Fault Refusal :=
  s.commit do
    let v1 ← readOperand s a
    .ok ((s.setRb (aluAdd s.rb v1)).advance 2)

/-- HLT (R161): `run_state <- Halted` and the run transaction ends with `Halted`; `ip` is unchanged. -/
def execHlt (s : State) : Host.Outcome State Fault Refusal :=
  s.commit (.ok ((s.setRunState .halted).endRun .halted))

end Sys2Proof.Machine
end

