-- ==== Sys2Proof/Machine/Fetch.lean ====
section
/-! DEFINITION. The fetch, decode and operand-word phases of a step (40_step_and_operands.md R91 to R93). -/

namespace Sys2Proof.Machine

/-- The core fault a decode fault is (R67, R203, R204, R207). -/
def decodeCause : DecodeFault → Fault
  | .unknownOpcode code => .unknownOpcode code
  | .invalidMode k digit => .invalidMode k digit
  | .invalidWriteTarget k => .invalidWriteTarget k

/-- The decode phase: pure in the instruction word (R67). -/
def decodePhase (w : Word) : Except Fault Head :=
  match decodeHead w with
  | .ok h => .ok h
  | .error f => .error (decodeCause f)

/-- `n` Words from address `a` upward, in ascending order; the lowest one outside memory faults (R93). -/
def fetchWords (s : State) (a : Nat) : Nat → Except Fault (List Word)
  | 0 => .ok []
  | n + 1 => do
    let w ← memRead s (a : Int)
    let ws ← fetchWords s (a + 1) n
    .ok (w :: ws)

/-- Phases F, D and O of R91: the instruction word, its decoding, then all its operand words. -/
def fetchInstr (s : State) : Except Fault Instr := do
  let w ← memRead s (s.ip : Int)
  let h ← decodePhase w
  let ps ← fetchWords s (s.ip + 1) h.op.operandCount
  .ok (h.instr ps)

end Sys2Proof.Machine
end

