-- ==== Sys2Proof/Machine/HostActions.lean ====
section
/-! DEFINITION. What the host may do to the core (46_run_loop_and_host.md R176 to R179, 70_reset_and_hazards.md
R240 to R243), and the ports' view of the core (R181, R201). -/

namespace Sys2Proof.Machine

/-- An integer that is a Word (R8). -/
def isWord (z : Int) : Bool := decide (wordMin ≤ z) && decide (z ≤ wordMax)

/-- The core part of `Reset(image)` (R240): nothing of the old core survives. The host's side stays. -/
def State.load (s : State) (image : List Int) : State :=
  { s with mem := Memory.load 0 (image.map wrap64), ip := 0, rb := 0, inq := [], runState := .running, busy := false }

/-- `Reset(image)` (R240), refused whole where the image cannot be loaded (R80, R243; log 9). -/
def State.hostReset (s : State) (image : List Int) : State :=
  if !image.all isWord then s.reply (.refused .entryNotWord)
  else if s.cfg.memDepth < image.length then s.reply (.refused .loadOverflow)
  else (s.load image).reply .accepted

/-- Room in the input queue: `length(inq) < INQ_DEPTH` (R176). -/
def State.queueHasRoom (s : State) : Bool :=
  match s.cfg.inqDepth with
  | none => true
  | some n => decide (s.inq.length < n)

/-- `Push(v)` (R176): in every run state; refused when the queue is full. -/
def State.hostPush (s : State) (v : Word) : State :=
  if s.queueHasRoom then (s.setInq (s.inq ++ [v])).reply .accepted else s.reply (.refused .queueFull)

/-- `Peek(a)` (R179): refused outside memory, which is no core fault. -/
def State.hostPeek (s : State) (a : Int) : State :=
  match memRead s a with
  | .ok v => s.reply (.word v)
  | .error _ => s.reply (.refused .noSuchCell)

/-- A host action taken while no run transaction is in progress (R177). `Run()` starts one (R171). -/
def State.hostAct (s : State) : HostAction → State
  | .reset image => s.hostReset image
  | .resetCutting _ image => s.hostReset image
  | .push v => s.hostPush v
  | .run => s.setBusy true
  | .peek a => s.hostPeek a

/-! ## The ports (R181) -/

/-- The fault codes of R201. -/
def Fault.code : Fault → Nat
  | .negativeAddress _ => 1
  | .unknownOpcode _ => 2
  | .invalidWriteTarget _ => 3
  | .addressOverflow _ => 4
  | .invalidMode _ _ => 5

/-- The information words of R201. -/
def Fault.info : Fault → Int
  | .negativeAddress a => a
  | .unknownOpcode code => code
  | .invalidWriteTarget k => k
  | .addressOverflow a => a
  | .invalidMode k digit => 10 * k + digit

/-- `st_kind`, 3 bits (R181, R201). -/
def RunOutcome.stKind : RunOutcome → BitVec 3
  | .halted => 1
  | .needsInput => 2
  | .output _ => 3
  | .fault _ => 4

/-- `st_data`, 64 bits: the output Word, or the fault code in the low bits, or 0 (R181). -/
def RunOutcome.stData : RunOutcome → BitVec 64
  | .halted => 0
  | .needsInput => 0
  | .output v => v
  | .fault f => BitVec.ofNat 64 f.code

/-- `st_info`, 65 bits two's complement: the fault's information, or 0 (R181). -/
def RunOutcome.stInfo : RunOutcome → BitVec 65
  | .halted => 0
  | .needsInput => 0
  | .output _ => 0
  | .fault f => BitVec.ofInt 65 f.info

/-- The outcome the status ports present: that of the run transaction that has just ended. `st_valid` is
that there is one (R181; log 20). -/
def State.presented (s : State) : Option RunOutcome :=
  if s.busy then none
  else
    match s.replies.getLast? with
    | some (.outcome o) => some o
    | some .accepted => none
    | some (.refused _) => none
    | some (.word _) => none
    | none => none

/-- `in_ready`: not busy and room in the queue (R181). -/
def State.inReady (s : State) : Bool := !s.busy && s.queueHasRoom

/-- `pk_data`: `mem[pk_addr]` when not busy (R181; log 20). -/
def State.peekData (s : State) (a : Nat) : Option Word :=
  if s.busy then none else if a < s.cfg.memDepth then some (s.mem.read a) else none

end Sys2Proof.Machine
end

