-- ==== Sys2Proof/Machine/RunLoop.lean ====
section
/-! DEFINITION. The step and the run loop (40_step_and_operands.md R90, 46_run_loop_and_host.md R171 to R177). -/

namespace Sys2Proof.Machine

/-- `Step()` of R91: fetch, decode and operand words, then the instruction's own arm. -/
def State.runInstr (s : State) : Host.Outcome State Fault Refusal :=
  match fetchInstr s with
  | .ok i => exec i s
  | .error f => .next (s.faultWith f)

/-- One iteration of the loop of `Run()` (R171): a halted or a faulted core returns at once and executes no
step (R173, R174). -/
def State.runOnce (s : State) : Host.Outcome State Fault Refusal :=
  match s.runState with
  | .running => s.runInstr
  | .halted => .next (s.endRun .halted)
  | .faulted f => .next (s.endRun (.fault f))

/-- While a run transaction is in progress the core accepts no host action but a reset that cuts it short;
that reset takes effect between two steps and the transaction has no outcome (R177, R240; log 8). -/
def State.busyStep (s : State) : Host.Outcome State Fault Refusal :=
  match s.requests with
  | .resetCutting 0 image :: rest => .next ((s.setRequests rest).hostReset image)
  | .resetCutting (n + 1) image :: rest => (s.setRequests (.resetCutting n image :: rest)).runOnce
  | _ => s.runOnce

/-- Between run transactions the host acts; with nothing asked for the core is idle with all state kept
(R214, R242; log 6). -/
def State.idleStep (s : State) : Host.Outcome State Fault Refusal :=
  match s.requests with
  | [] => .next s
  | act :: rest => .next ((s.setRequests rest).hostAct act)

/-- The Words of a list put into memory from address `a` upward, as far as there are cells. -/
def storeWords (s : State) (a : Nat) : List Word → State
  | [] => s
  | v :: vs =>
    match memWrite s (a : Int) v with
    | .ok t => storeWords t (a + 1) vs
    | .error _ => s

/-- A reset that cuts a run short. -/
def HostAction.cuts : HostAction → Bool
  | .resetCutting _ _ => true
  | .reset _ => false
  | .push _ => false
  | .run => false
  | .peek _ => false

/-- The Words of a program put where the next instruction is fetched, on a running core inside a run
transaction that no pending reset cuts (log 10). -/
def State.placeWords (s : State) (ws : List Word) : State :=
  (((storeWords s s.ip ws).setRunState .running).setBusy true).setRequests (s.requests.dropWhile HostAction.cuts)

end Sys2Proof.Machine
end

