-- ==== Sys2Proof/Machine/Step.lean ====
section
/-! DEFINITION. The step of the whole machine, core and host (46_run_loop_and_host.md R170, R177). -/

namespace Sys2Proof.Machine

/-- One move: of the core while a run transaction is in progress, of the host otherwise (R177). -/
def step (s : State) : Host.Outcome State Fault Refusal :=
  if s.busy then s.busyStep else s.idleStep

/-- The instruction whose bits are `w`, numbered as the opcode table numbers them, stored where `step`
fetches next, with the run transaction the fetch needs in progress (log 10, log 11). -/
def State.withFetchWord (s : State) (nbits w : Nat) : State :=
  s.placeWords (tableWords nbits w)

end Sys2Proof.Machine
end

