-- ==== Sys2Proof/Safety.lean ====
section
/-! DEFINITION. The terms statements use: the invariant of the machine, when a step executes an instruction,
what two states share, and what counts as a safe run. -/

namespace Sys2Proof.Machine

/-- The invariant of the machine after reset and after every step and host action (10_state.md R31), with
the parameters' bounds (R7) and the memory's canonical form. -/
structure State.Inv (s : State) : Prop where
  /-- The parameters are in their ranges (R7). -/
  config : s.cfg.WellFormed
  /-- `0 <= ip <= WORD_MAX` (R21, R31). -/
  ip : s.ip < 2 ^ 63
  /-- The memory is in its canonical form. -/
  canonical : s.mem.wf = true
  /-- No cell at or above `MEM_DEPTH` holds anything (R24). -/
  inside : ∀ c ∈ s.mem, c.1 < s.cfg.memDepth
  /-- `length(inq) <= INQ_DEPTH` (R31). -/
  queue : ∀ n, s.cfg.inqDepth = some n → s.inq.length ≤ n

/-- The information a fault may carry (60_exceptions.md R201, R70, R204). -/
def Fault.Legal (memDepth : Nat) : Fault → Prop
  | .negativeAddress a => -2 ^ 64 ≤ a ∧ a ≤ -1
  | .unknownOpcode code => -99 ≤ code ∧ code ≤ 98 ∧ ¬ (1 ≤ code ∧ code ≤ 9)
  | .invalidWriteTarget k => k = 1 ∨ k = 3
  | .addressOverflow a => (memDepth : Int) ≤ a ∧ a ≤ 2 ^ 64 - 2
  | .invalidMode k digit => 1 ≤ k ∧ k ≤ 3 ∧ 3 ≤ digit ∧ digit ≤ 9

/-- A recorded fault carries information in the range R201 gives its cause. -/
def State.FaultLegal (s : State) : Prop :=
  ∀ f, s.runState = .faulted f → f.Legal s.cfg.memDepth

/-- No reset that cuts the run in progress short is the host's next action. -/
def State.uncut (s : State) : Bool := (s.requests.take 1).all fun act => !act.cuts

/-- The next step of the machine executes an instruction: a run transaction is in progress, the core is
`Running` (R90), and no reset cuts the run (R177). -/
def State.Executing (s : State) : Prop :=
  s.busy = true ∧ s.runState = .running ∧ s.uncut = true

/-- A run transaction is in progress, no reset takes effect in this move, and `rs` is what the move leaves of the
host's requests: all of them, or with a reset that cuts the run one move nearer (R177; log 8). -/
def State.LoopsWith (s : State) (rs : List HostAction) : Prop :=
  s.busy = true ∧ ((s.uncut = true ∧ rs = s.requests) ∨
    ∃ n image rest, s.requests = .resetCutting (n + 1) image :: rest ∧ rs = .resetCutting n image :: rest)

/-- The Words `ws` stand in memory from address `a` upward. -/
def State.Holds (s : State) (a : Nat) (ws : List Word) : Prop :=
  a + ws.length ≤ s.cfg.memDepth ∧ ∀ k, ∀ h : k < ws.length, s.mem.read (a + k) = ws[k]

/-- Two machines whose cores are in the same state, whatever their hosts. -/
def State.SameCore (s t : State) : Prop :=
  s.cfg = t.cfg ∧ s.ip = t.ip ∧ s.rb = t.rb ∧ s.mem = t.mem ∧ s.inq = t.inq ∧ s.runState = t.runState

/-- The cell an instruction stores to, computed as its meaning computes it (R96); none for the instructions
that write no memory, for a destination that faults, and for IN on an empty queue (R56). -/
def State.storedCell (s : State) (i : Instr) : Option Nat :=
  match i.dest with
  | none => none
  | some (k, d) =>
    if i.op = .inp ∧ s.inq = [] then none
    else
      match writeAddr s k d with
      | .ok n => some n
      | .error _ => none

/-- The whole run transaction in progress, under fuel, since it need not end (46_run_loop_and_host.md R171,
R175): the state at its end, or none while the fuel does not reach it. -/
def State.transaction : Nat → State → Option State
  | 0, s => if s.busy then none else some s
  | k + 1, s =>
    if s.busy then
      match step s with
      | .next t => State.transaction k t
      | .fault _ => none
      | .refused _ => none
    else some s

/-- A safe run: no state of the first `k` moves of the machine is faulted. -/
def State.SafeRun (k : Nat) (s : State) : Prop :=
  ∀ j, j ≤ k → ∀ t, Sys2Proof.core.run j s = .next t → ∀ f : Fault, t.runState ≠ .faulted f

end Sys2Proof.Machine
end

