-- ==== Sys2Proof/Certificates/Slice0/Obligations.lean ====
section
/-! DEFINITION. The statements for the provers. Each docstring names the rule of spec/ it comes from. A faulted
next state is written out as the fields that fault entry changes (60_exceptions.md R206): the run state, the end
of the run transaction, and the outcome handed to the host; every other field is unchanged. -/

open Sys2Proof Sys2Proof.Machine

/-! ## Integers (00_scope.md) -/

/-- R9: `wrap64(z)` is the one Word congruent to `z` modulo `2^64`, and a Word wraps to itself. -/
def Obligations.Wrap64IsTheCongruentWord : Prop :=
  ∀ z : Int,
    (wrap64 z).toInt = (if z % 2 ^ 64 < 2 ^ 63 then z % 2 ^ 64 else z % 2 ^ 64 - 2 ^ 64) ∧
    (∀ w : Word, (2 ^ 64 : Int) ∣ w.toInt - z → w = wrap64 z) ∧
    ∀ w : Word, wrap64 w.toInt = w

/-- R10: truncating division, with the rule's six examples. -/
def Obligations.DivisionTruncatesTowardZero : Prop :=
  (∀ a b : Int, 0 < b →
    trem a b = a - b * tdiv a b ∧
    (0 ≤ a → tdiv a b = a / b ∧ trem a b = a % b ∧ 0 ≤ trem a b ∧ trem a b ≤ b - 1) ∧
    (a < 0 → tdiv a b = -((-a) / b) ∧ trem a b = -((-a) % b) ∧ trem a b ≤ 0)) ∧
  tdiv 1002 100 = 10 ∧ trem 1002 100 = 2 ∧ tdiv (-1) 100 = 0 ∧ trem (-1) 100 = -1 ∧
  tdiv (-199) 100 = -1 ∧ trem (-199) 100 = -99

/-- R11: the decimal digit of weight `10^k` of a number that is not negative. -/
def Obligations.DigitHasItsDecimalWeight : Prop :=
  ∀ (z : Int) (k : Nat), 0 ≤ z →
    digit z k = trem (tdiv z (10 ^ k)) 10 ∧ 0 ≤ digit z k ∧ digit z k ≤ 9 ∧
    z / 10 ^ k = 10 * (z / 10 ^ (k + 1)) + digit z k

/-- R124: wrapped sums and products compute the exact result modulo `2^64`, and equal it where it fits. -/
def Obligations.WrappedArithmeticIsModular : Prop :=
  ∀ x y : Int,
    wrap64 (x + y) = wrap64 (y + x) ∧ wrap64 (x * y) = wrap64 (y * x) ∧
    wrap64 ((wrap64 x).toInt + y) = wrap64 (x + y) ∧ wrap64 ((wrap64 x).toInt * y) = wrap64 (x * y) ∧
    (wordMin ≤ x → x ≤ wordMax → (wrap64 x).toInt = x)

/-! ## Encoding (30_encoding.md) -/

/-- The round trip over every well-formed instruction: what the encoder writes, whatever stands behind it, the
decoder reads back with every operand (30_encoding.md sections 1, 4 and 7). -/
def Obligations.DecodeOfEncodeIsTheInstruction : Prop :=
  ∀ (i : Instr) (rest : List Word), i.WellFormed → decode (encode i ++ rest) = .ok (i, rest)

/-- The other direction: what decodes is the opcode field's operation, with the digits of its modes and its
operand words whole; the canonical encoding has the same operand words (30_encoding.md sections 1 to 4, 6). -/
def Obligations.DecodedInstructionReadsItsDigits : Prop :=
  ∀ (ws rest : List Word) (i : Instr), decode ws = .ok (i, rest) →
    i.WellFormed ∧ ∃ w ps, ws = w :: (ps ++ rest) ∧ ps.length + 1 = i.op.width ∧
      i.operands.map Operand.word = ps ∧ encode i = wrap64 i.headValue :: ps ∧ i.op.code = trem w.toInt 100 ∧
      ∀ k o, i.operands[k]? = some o → digit w.toInt (k + 2) = o.mode.code

/-- R71: (a) a digit of an operand the instruction does not have, and (b) a digit of weight `10^5` or more, has no
effect: words that agree in the opcode and in the used mode digits decode to the same instruction or to the same fault,
whatever stands behind them; and words that agree in the five low digits have the same record (R67). -/
def Obligations.UnusedDigitsAreIgnored : Prop :=
  ∀ (w w' : Word) (op : Opcode), op.code = trem w.toInt 100 → 0 ≤ w'.toInt →
    (trem w'.toInt (10 ^ (2 + op.operandCount)) = trem w.toInt (10 ^ (2 + op.operandCount)) →
      (∀ ps, decode (w' :: ps) = decode (w :: ps)) ∧
      ∀ f, decodeHead w' = .error f ↔ decodeHead w = .error f) ∧
    (trem w'.toInt (10 ^ 5) = trem w.toInt (10 ^ 5) → decodeHead w' = decodeHead w)

/-- R68: a word is an unknown opcode exactly when its two low digits are not 1 to 9 or 99, and then nothing else is
reported; for words that are not negative the illegal codes are 0 and 10 to 98; the zero Word is one. -/
def Obligations.UnknownOpcodeExactlyOutsideTheMap : Prop :=
  (∀ w : Word, decodeHead w = .error (.unknownOpcode (trem w.toInt 100)) ↔
    ¬ ((1 ≤ trem w.toInt 100 ∧ trem w.toInt 100 ≤ 9) ∨ trem w.toInt 100 = 99)) ∧
  (∀ w : Word, 0 ≤ w.toInt → ((∃ c, decodeHead w = .error (.unknownOpcode c)) ↔
    (trem w.toInt 100 = 0 ∨ (10 ≤ trem w.toInt 100 ∧ trem w.toInt 100 ≤ 98)))) ∧
  decodeHead 0 = .error (.unknownOpcode 0)

/-- R69: no negative Word is an instruction, with the rule's five examples. The code these faults carry is the one the
rule gives; U2 warns that another implementation may carry another (log 17). -/
def Obligations.NegativeWordIsUnknownOpcode : Prop :=
  (∀ w : Word, w.toInt < 0 →
    -99 ≤ trem w.toInt 100 ∧ trem w.toInt 100 ≤ 0 ∧ decodeHead w = .error (.unknownOpcode (trem w.toInt 100))) ∧
  decodeHead (wrap64 (-1)) = .error (.unknownOpcode (-1)) ∧
  decodeHead (wrap64 (-99)) = .error (.unknownOpcode (-99)) ∧
  decodeHead (wrap64 (-100)) = .error (.unknownOpcode 0) ∧
  decodeHead (wrap64 (-1101)) = .error (.unknownOpcode (-1)) ∧
  decodeHead (wrap64 wordMin) = .error (.unknownOpcode (-8))

/-- R70: a mode digit of 3 to 9 on an operand the instruction has is `InvalidMode`, for the lowest such operand. -/
def Obligations.InvalidModeOfTheLowestOperand : Prop :=
  ∀ (w : Word) (op : Opcode) (k : Nat), op.code = trem w.toInt 100 → 1 ≤ k → k ≤ op.operandCount →
    3 ≤ digit w.toInt (k + 1) → (∀ j : Nat, 1 ≤ j → j < k → digit w.toInt (j + 1) ≤ 2) →
    decodeHead w = .error (.invalidMode k (digit w.toInt (k + 1)).toNat)

/-- R72, R67: with its used mode digits valid, a word decodes unless its write operand is Immediate, which is
`InvalidWriteTarget`; Immediate is legal on every read operand. The record holds the word's three digits, those of
absent operands included, and every used one is the digit of its mode. -/
def Obligations.ImmediateDestinationIsInvalidWriteTarget : Prop :=
  ∀ (w : Word) (op : Opcode), op.code = trem w.toInt 100 →
    (∀ k : Nat, 1 ≤ k → k ≤ op.operandCount → digit w.toInt (k + 1) ≤ 2) →
    (∀ d, op.destIndex = some d → digit w.toInt (d + 1) = 1 → decodeHead w = .error (.invalidWriteTarget d)) ∧
    ((∀ d, op.destIndex = some d → digit w.toInt (d + 1) ≠ 1) → ∃ h : Head, decodeHead w = .ok h ∧ h.op = op ∧
      (h.m1 : Int) = digit w.toInt 2 ∧ (h.m2 : Int) = digit w.toInt 3 ∧ (h.m3 : Int) = digit w.toInt 4 ∧
      ∀ k : Nat, 1 ≤ k → k ≤ op.operandCount → digit w.toInt (k + 1) = (h.mode k).code)

/-- The worked decodings of R83, row by row: the opcode and the three digits of the record, or the fault. -/
def Obligations.WorkedDecodingsOfTheSpec : Prop :=
  decodeHead 1 = .ok ⟨.add, 0, 0, 0⟩ ∧ decodeHead 1002 = .ok ⟨.mul, 0, 1, 0⟩ ∧
  decodeHead 1101 = .ok ⟨.add, 1, 1, 0⟩ ∧ decodeHead 21107 = .ok ⟨.lt, 1, 1, 2⟩ ∧
  decodeHead 204 = .ok ⟨.out, 2, 0, 0⟩ ∧ decodeHead 203 = .ok ⟨.inp, 2, 0, 0⟩ ∧
  decodeHead 109 = .ok ⟨.arb, 1, 0, 0⟩ ∧ decodeHead 1005 = .ok ⟨.jnz, 0, 1, 0⟩ ∧
  decodeHead 2106 = .ok ⟨.jz, 1, 2, 0⟩ ∧ decodeHead 99 = .ok ⟨.hlt, 0, 0, 0⟩ ∧
  decodeHead 0 = .error (.unknownOpcode 0) ∧ decodeHead 10 = .error (.unknownOpcode 10) ∧
  decodeHead 199 = .ok ⟨.hlt, 1, 0, 0⟩ ∧ decodeHead 11101 = .error (.invalidWriteTarget 3) ∧
  decodeHead 301 = .error (.invalidMode 1 3) ∧ decodeHead 13301 = .error (.invalidMode 1 3) ∧
  decodeHead (wrap64 (-1)) = .error (.unknownOpcode (-1))

/-! ## Memory and operands (20_memory.md, 40_step_and_operands.md) -/

/-- R41: the address check, the negative test first; the conditions cannot both hold. -/
def Obligations.AddressCheckIsExact : Prop :=
  ∀ (s : State) (a : Int),
    (a < 0 → checkAddr s a = .error (.negativeAddress a)) ∧
    ((s.cfg.memDepth : Int) ≤ a → checkAddr s a = .error (.addressOverflow a)) ∧
    (0 ≤ a → a < s.cfg.memDepth → checkAddr s a = .ok a.toNat) ∧
    ¬ (a < 0 ∧ (s.cfg.memDepth : Int) ≤ a)

/-- A read returns the latest write to its cell and every other cell reads as before; an access outside memory
faults and stores nothing (20_memory.md sections 2 and 3). -/
def Obligations.MemoryReturnsTheLatestWrite : Prop :=
  ∀ (s : State) (a : Int) (v : Word),
    (0 ≤ a → a < s.cfg.memDepth → ∃ t, memWrite s a v = .ok t ∧ memRead t a = .ok v ∧
      (∀ b : Int, b ≠ a → memRead t b = memRead s b) ∧ t = { s with mem := t.mem }) ∧
    (a < 0 → memWrite s a v = .error (.negativeAddress a) ∧ memRead s a = .error (.negativeAddress a)) ∧
    ((s.cfg.memDepth : Int) ≤ a →
      memWrite s a v = .error (.addressOverflow a) ∧ memRead s a = .error (.addressOverflow a))

/-- R95: a read operand in each of the three modes; the Relative sum is exact. -/
def Obligations.ReadOperandByMode : Prop :=
  ∀ (s : State) (p : Word),
    readOperand s ⟨.immediate, p⟩ = .ok p ∧
    (∀ m e, (m = Mode.position ∧ e = p.toInt) ∨ (m = Mode.relative ∧ e = p.toInt + s.rb.toInt) →
      (e < 0 → readOperand s ⟨m, p⟩ = .error (.negativeAddress e)) ∧
      ((s.cfg.memDepth : Int) ≤ e → readOperand s ⟨m, p⟩ = .error (.addressOverflow e)) ∧
      (0 ≤ e → e < s.cfg.memDepth → readOperand s ⟨m, p⟩ = .ok (s.mem.read e.toNat)))

/-- R96: a write operand in the two modes the decoder lets through: its address, checked. -/
def Obligations.WriteOperandByMode : Prop :=
  ∀ (s : State) (k : Nat) (p : Word) (m : Mode) (e : Int),
    (m = .position ∧ e = p.toInt) ∨ (m = .relative ∧ e = p.toInt + s.rb.toInt) →
      (e < 0 → writeAddr s k ⟨m, p⟩ = .error (.negativeAddress e)) ∧
      ((s.cfg.memDepth : Int) ≤ e → writeAddr s k ⟨m, p⟩ = .error (.addressOverflow e)) ∧
      (0 ≤ e → e < s.cfg.memDepth → writeAddr s k ⟨m, p⟩ = .ok e.toNat)

/-! ## The instructions (files 41 to 45): what each computes, where it goes, and that nothing else changes -/

/-- ADD (R120): the wrapped sum goes to the destination cell, `ip` advances by 4, every other cell and every
other part of the state is unchanged. -/
def Obligations.AddStoresTheWrappedSum : Prop :=
  ∀ (s : State) (a b d : Operand) (v1 v2 : Word) (d3 : Nat),
    readOperand s a = .ok v1 → readOperand s b = .ok v2 → writeAddr s 3 d = .ok d3 →
    ∃ t, exec (.add a b d) s = .next t ∧ t.mem.read d3 = wrap64 (v1.toInt + v2.toInt) ∧
      (∀ x, x ≠ d3 → t.mem.read x = s.mem.read x) ∧ t = { s with mem := t.mem, ip := s.ip + 4 }

/-- MUL (R121): the low 64 bits of the exact signed product. -/
def Obligations.MulStoresTheWrappedProduct : Prop :=
  ∀ (s : State) (a b d : Operand) (v1 v2 : Word) (d3 : Nat),
    readOperand s a = .ok v1 → readOperand s b = .ok v2 → writeAddr s 3 d = .ok d3 →
    ∃ t, exec (.mul a b d) s = .next t ∧ t.mem.read d3 = wrap64 (v1.toInt * v2.toInt) ∧
      (∀ x, x ≠ d3 → t.mem.read x = s.mem.read x) ∧ t = { s with mem := t.mem, ip := s.ip + 4 }

/-- LT (R150): the Word 1 if `v1 < v2` as signed numbers, else the Word 0. -/
def Obligations.LtStoresTheSignedComparison : Prop :=
  ∀ (s : State) (a b d : Operand) (v1 v2 : Word) (d3 : Nat),
    readOperand s a = .ok v1 → readOperand s b = .ok v2 → writeAddr s 3 d = .ok d3 →
    ∃ t, exec (.lt a b d) s = .next t ∧ t.mem.read d3 = (if v1.toInt < v2.toInt then 1 else 0) ∧
      (∀ x, x ≠ d3 → t.mem.read x = s.mem.read x) ∧ t = { s with mem := t.mem, ip := s.ip + 4 }

/-- EQ (R151): the Word 1 if the two Words are equal, else the Word 0. -/
def Obligations.EqStoresTheEquality : Prop :=
  ∀ (s : State) (a b d : Operand) (v1 v2 : Word) (d3 : Nat),
    readOperand s a = .ok v1 → readOperand s b = .ok v2 → writeAddr s 3 d = .ok d3 →
    ∃ t, exec (.eq a b d) s = .next t ∧ t.mem.read d3 = (if v1 = v2 then 1 else 0) ∧
      (∀ x, x ≠ d3 → t.mem.read x = s.mem.read x) ∧ t = { s with mem := t.mem, ip := s.ip + 4 }

/-- IN with a Word queued (R130): the head goes to the destination cell unchanged and leaves the queue, the order
of the rest is kept, `ip` advances by 2, no event. -/
def Obligations.InTakesTheHeadOfTheQueue : Prop :=
  ∀ (s : State) (d : Operand) (d1 : Nat) (v : Word) (rest : List Word),
    writeAddr s 1 d = .ok d1 → s.inq = v :: rest →
    ∃ t, exec (.inp d) s = .next t ∧ t.mem.read d1 = v ∧ (∀ x, x ≠ d1 → t.mem.read x = s.mem.read x) ∧
      t = { s with mem := t.mem, inq := rest, ip := s.ip + 2 }

/-- IN on an empty queue (R130): the run transaction ends with `NeedsInput` and nothing of the core changes. -/
def Obligations.InOnEmptyQueueNeedsInput : Prop :=
  ∀ (s : State) (d : Operand) (d1 : Nat), writeAddr s 1 d = .ok d1 → s.inq = [] →
    exec (.inp d) s = .next { s with busy := false, replies := s.replies ++ [.outcome .needsInput] }

/-- OUT (R131): `ip` advances by 2 and the run transaction ends with `Output(v1)`; memory, `rb` and `inq` are
unchanged. -/
def Obligations.OutEndsTheRunWithItsValue : Prop :=
  ∀ (s : State) (a : Operand) (v1 : Word), readOperand s a = .ok v1 →
    exec (.out a) s =
      .next { s with ip := s.ip + 2, busy := false, replies := s.replies ++ [.outcome (.output v1)] }

/-- JNZ (R140): any non-zero Word takes the jump to the absolute target; zero goes on behind the instruction. -/
def Obligations.JnzJumpsOnNonZero : Prop :=
  ∀ (s : State) (a b : Operand) (v1 v2 : Word), readOperand s a = .ok v1 → readOperand s b = .ok v2 →
    (v1 ≠ 0 → 0 ≤ v2.toInt → ∃ n : Nat, (n : Int) = v2.toInt ∧ exec (.jnz a b) s = .next { s with ip := n }) ∧
    (v1 = 0 → exec (.jnz a b) s = .next { s with ip := s.ip + 3 })

/-- JZ (R141): the condition inverted. -/
def Obligations.JzJumpsOnZero : Prop :=
  ∀ (s : State) (a b : Operand) (v1 v2 : Word), readOperand s a = .ok v1 → readOperand s b = .ok v2 →
    (v1 = 0 → 0 ≤ v2.toInt → ∃ n : Nat, (n : Int) = v2.toInt ∧ exec (.jz a b) s = .next { s with ip := n }) ∧
    (v1 ≠ 0 → exec (.jz a b) s = .next { s with ip := s.ip + 3 })

/-- R142: only a taken jump looks at the sign of its target, and a negative one faults in the jump's own step with
`ip` on the jump; a target at or above `MEM_DEPTH` is accepted, and the next step's fetch faults. -/
def Obligations.JumpTargetIsCheckedOnlyWhenTaken : Prop :=
  ∀ (s : State) (a b : Operand) (v1 v2 : Word), readOperand s a = .ok v1 → readOperand s b = .ok v2 →
    ∀ (i : Instr) (taken : Prop), (i = .jnz a b ∧ taken = (v1 ≠ 0)) ∨ (i = .jz a b ∧ taken = (v1 = 0)) →
      (taken → v2.toInt < 0 → exec i s = .next { s with
        runState := .faulted (.negativeAddress v2.toInt), busy := false,
        replies := s.replies ++ [.outcome (.fault (.negativeAddress v2.toInt))] }) ∧
      (¬ taken → exec i s = .next { s with ip := s.ip + 3 }) ∧
      (taken → 0 ≤ v2.toInt → exec i s = .next { s with ip := v2.toInt.toNat }) ∧
      (taken → (s.cfg.memDepth : Int) ≤ v2.toInt → s.Executing →
        ∃ t, exec i s = .next t ∧ step t = .next { t with
          runState := .faulted (.addressOverflow v2.toInt), busy := false,
          replies := t.replies ++ [.outcome (.fault (.addressOverflow v2.toInt))] })

/-- ARB (R160): the operand is added to `rb` with wrap, `ip` advances by 2; memory and `inq` are unchanged. -/
def Obligations.ArbAddsToTheRelativeBase : Prop :=
  ∀ (s : State) (a : Operand) (v1 : Word), readOperand s a = .ok v1 →
    exec (.arb a) s = .next { s with rb := wrap64 (s.rb.toInt + v1.toInt), ip := s.ip + 2 }

/-- HLT (R161): the run state is `Halted` and the run transaction ends; `ip` stays on the HLT. -/
def Obligations.HltHaltsWhereItStands : Prop :=
  ∀ s : State, exec .hlt s =
    .next { s with runState := .halted, busy := false, replies := s.replies ++ [.outcome .halted] }

/-- R98 and item 6 of R208: operands are resolved in ascending order, used or not, and the first that faults is the
fault of the step; IN faults before its queue is looked at and consumes nothing (R130). That a meaning handed an
Immediate destination, which no decoded instruction has, takes `InvalidWriteTarget` is the model's reading (log 13).
-/
def Obligations.FirstFaultingOperandIsTheFault : Prop :=
  ∀ (s : State) (a b d : Operand) (f : Fault),
    (∀ i, i = .add a b d ∨ i = .mul a b d ∨ i = .lt a b d ∨ i = .eq a b d →
      (readOperand s a = .error f ∨ ((∃ v1, readOperand s a = .ok v1) ∧ (readOperand s b = .error f ∨
        ((∃ v2, readOperand s b = .ok v2) ∧ writeAddr s 3 d = .error f)))) →
      exec i s = .next { s with
        runState := .faulted f, busy := false, replies := s.replies ++ [.outcome (.fault f)] }) ∧
    (∀ i, i = .jnz a b ∨ i = .jz a b →
      (readOperand s a = .error f ∨ ((∃ v1, readOperand s a = .ok v1) ∧ readOperand s b = .error f)) →
      exec i s = .next { s with
        runState := .faulted f, busy := false, replies := s.replies ++ [.outcome (.fault f)] }) ∧
    (∀ i, i = .out a ∨ i = .arb a → readOperand s a = .error f →
      exec i s = .next { s with
        runState := .faulted f, busy := false, replies := s.replies ++ [.outcome (.fault f)] }) ∧
    (writeAddr s 1 d = .error f →
      exec (.inp d) s = .next { s with
        runState := .faulted f, busy := false, replies := s.replies ++ [.outcome (.fault f)] })

/-- R100: the effect depends on an operand only through the value read or the cell addressed. -/
def Obligations.EqualOperandsHaveEqualEffect : Prop :=
  ∀ (s : State) (a a' b b' d d' : Operand),
    readOperand s a = readOperand s a' → readOperand s b = readOperand s b' →
    writeAddr s 3 d = writeAddr s 3 d' → writeAddr s 1 d = writeAddr s 1 d' →
    exec (.add a b d) s = exec (.add a' b' d') s ∧ exec (.mul a b d) s = exec (.mul a' b' d') s ∧
    exec (.lt a b d) s = exec (.lt a' b' d') s ∧ exec (.eq a b d) s = exec (.eq a' b' d') s ∧
    exec (.jnz a b) s = exec (.jnz a' b') s ∧ exec (.jz a b) s = exec (.jz a' b') s ∧
    exec (.inp d) s = exec (.inp d') s ∧ exec (.out a) s = exec (.out a') s ∧
    exec (.arb a) s = exec (.arb a') s

/-- Whole-machine rule over all instructions (40_step_and_operands.md section 5): an instruction writes no cell but
the one its write operand addresses, `rb` only in ARB, and `inq` only by taking its head in IN; it leaves the
parameters and the host's requests alone. -/
def Obligations.InstructionWritesOnlyItsDestination : Prop :=
  ∀ (i : Instr) (s t : State), exec i s = .next t →
    (∀ x, s.storedCell i ≠ some x → t.mem.read x = s.mem.read x) ∧
    (i.op ≠ .arb → t.rb = s.rb) ∧
    (t.inq = s.inq ∨ (i.op = .inp ∧ ∃ v, s.inq = v :: t.inq)) ∧
    t.cfg = s.cfg ∧ t.requests = s.requests

/-! ## The step and fault entry (40_step_and_operands.md, 60_exceptions.md) -/

/-- A step in a run transaction on a Running core runs the instruction the Words at `ip` decode to, and adds nothing
around it; where a reset that cuts the run is still some steps away, it comes one step nearer (log 8). -/
def Obligations.StepRunsTheDecodedInstruction : Prop :=
  ∀ (s : State) (ws rest : List Word) (i : Instr), s.Holds s.ip ws → decode ws = .ok (i, rest) →
    (s.Executing → step s = exec i s) ∧
    (∀ n image rs, s.busy = true → s.runState = .running → s.requests = .resetCutting (n + 1) image :: rs →
      step s = exec i { s with requests := .resetCutting n image :: rs })

/-- Items 1 to 5 of R208: a fetch outside memory, then the decoder's fault, then the lowest operand word outside
memory; each is the fault of the step and nothing else of the core changes. What becomes of the host's requests, a
reset that is to cut the run later coming one move nearer, is no part of the rule but the model's choice (log 8). -/
def Obligations.FetchFaultsInOrder : Prop :=
  ∀ (s : State) (rs : List HostAction), s.LoopsWith rs → s.runState = .running →
    ∀ f : Fault,
      (s.cfg.memDepth ≤ s.ip ∧ f = .addressOverflow s.ip) ∨
      (s.ip < s.cfg.memDepth ∧ decodePhase (s.mem.read s.ip) = .error f) ∨
      (s.ip < s.cfg.memDepth ∧ ∃ h k, decodePhase (s.mem.read s.ip) = .ok h ∧ 1 ≤ k ∧ k ≤ h.op.operandCount ∧
        s.ip + k = s.cfg.memDepth ∧ f = .addressOverflow (s.ip + k : Nat)) →
      step s = .next { s with
        runState := .faulted f, busy := false, requests := rs, replies := s.replies ++ [.outcome (.fault f)] }

/-- R206: a fault changes the run state and ends the run transaction with that fault, and nothing else: it is precise,
whichever instruction and whichever check raised it. What becomes of the host's requests, a reset that is to cut the
run later coming one move nearer, is no part of the rule but the model's choice (log 8). -/
def Obligations.FaultsArePrecise : Prop :=
  ∀ (s t : State) (rs : List HostAction) (f : Fault), s.LoopsWith rs → s.runState = .running → step s = .next t →
    t.runState = .faulted f →
    t = { s with
      runState := .faulted f, busy := false, requests := rs, replies := s.replies ++ [.outcome (.fault f)] }

/-- A store to the cell about to be fetched is what the next step runs (20_memory.md section 5, R49): the stored Word
is decoded anew, to its fault or to its instruction. -/
def Obligations.StoredWordIsFetchedAtOnce : Prop :=
  ∀ (s : State) (v : Word), s.Executing → s.ip < s.cfg.memDepth →
    (∀ f, decodePhase v = .error f → step (s.store s.ip v) = .next { s.store s.ip v with
      runState := .faulted f, busy := false, replies := s.replies ++ [.outcome (.fault f)] }) ∧
    (∀ ps rest i, s.Holds (s.ip + 1) ps → decode (v :: ps) = .ok (i, rest) →
      step (s.store s.ip v) = exec i (s.store s.ip v))

/-- Every state has a next state: nothing a program or a host does stops the machine (93_implementation_defined.md
section 1, its last paragraph). -/
def Obligations.EveryStepHasANextState : Prop :=
  ∀ s : State, ∃ t, step s = .next t

/-! ## Invariants (10_state.md R31) -/

/-- R32 for the empty image, with the default parameters: the values of reset and every cell 0. That no run transaction
is in progress is the model's reading of R242 (log 5), and that the host has asked for nothing and was handed nothing
is the model's choice (log 4). -/
def Obligations.ResetStateHasTheSpecsValues : Prop :=
  State.reset.ip = 0 ∧ State.reset.rb = 0 ∧ State.reset.inq = [] ∧ State.reset.runState = .running ∧
  (∀ a, State.reset.mem.read a = 0) ∧ State.reset.busy = false ∧ State.reset.cfg.memDepth = 65536 ∧
  State.reset.cfg.inqDepth = none ∧ State.reset.requests = [] ∧ State.reset.replies = []

/-- The invariant holds right after reset. -/
def Obligations.ResetStateHasTheInvariant : Prop := State.reset.Inv ∧ State.reset.FaultLegal

/-- Every step of the machine, the core's or the host's, keeps the invariant of R31 from every state that has it. -/
def Obligations.EveryStepKeepsTheInvariant : Prop :=
  ∀ s t : State, s.Inv → step s = .next t → t.Inv

/-- Every step keeps the information of a recorded fault in the range R201 gives its cause. -/
def Obligations.FaultInformationStaysInRange : Prop :=
  ∀ s t : State, s.Inv → s.FaultLegal → step s = .next t → t.FaultLegal

/-- R31 (e) and R26: `Halted` and `Faulted(c)` are absorbing: while the core is not Running a step leaves `ip`, `rb`,
memory and the run state alone, and `inq` may only grow, unless it is a reset. -/
def Obligations.HaltedAndFaultedAreAbsorbing : Prop :=
  ∀ s t : State, s.runState ≠ .running → step s = .next t →
    (t.ip = s.ip ∧ t.rb = s.rb ∧ t.mem = s.mem ∧ t.runState = s.runState ∧ ∃ q, t.inq = s.inq ++ q) ∨
    (s.busy = false ∧ ∃ image rest, s.requests = .reset image :: rest ∨
      ∃ n, s.requests = .resetCutting n image :: rest) ∨
    (s.busy = true ∧ ∃ image rest, s.requests = .resetCutting 0 image :: rest)

/-- A run whose host resets nothing is safe exactly up to where it stands: fault states do not heal (R31 (e), R209),
so a machine that is not faulted after `k` moves was not faulted after any of them. -/
def Obligations.UnfaultedRunWasSafe : Prop :=
  ∀ (k : Nat) (s t : State),
    (∀ act ∈ s.requests, (∀ image, act ≠ .reset image) ∧ ∀ n image, act ≠ .resetCutting n image) →
    Sys2Proof.core.run k s = .next t → (∀ f, t.runState ≠ .faulted f) → State.SafeRun k s

/-- What the core does is a function of the core alone (46_run_loop_and_host.md R171, R178): two machines with equal
cores, whatever their hosts asked and heard, have equal cores after the step. -/
def Obligations.CoreStepIgnoresTheHost : Prop :=
  ∀ s s' t t' : State, s.SameCore s' → s.Executing → s'.Executing → step s = .next t → step s' = .next t' →
    t.SameCore t' ∧ t.busy = t'.busy

/-! ## The run transaction and the host (46_run_loop_and_host.md, 70_reset_and_hazards.md) -/

/-- R173: a run transaction on a halted core returns `Halted` at once and changes nothing of the core. What becomes of
the host's requests, a reset that is to cut the run later coming one move nearer, is no part of the rule but the
model's choice (log 8). -/
def Obligations.RunAfterHaltReturnsHalted : Prop :=
  ∀ (s : State) (rs : List HostAction), s.LoopsWith rs → s.runState = .halted →
    step s = .next { s with busy := false, requests := rs, replies := s.replies ++ [.outcome .halted] }

/-- R174: a run transaction on a faulted core returns the same fault again and changes nothing of the core. What
becomes of the host's requests, a reset that is to cut the run later coming one move nearer, is no part of the rule
but the model's choice (log 8). -/
def Obligations.RunAfterFaultReturnsTheFault : Prop :=
  ∀ (s : State) (rs : List HostAction) (f : Fault), s.LoopsWith rs → s.runState = .faulted f →
    step s = .next { s with busy := false, requests := rs, replies := s.replies ++ [.outcome (.fault f)] }

/-- R171 and R172: a run transaction that ends and that no reset cuts short hands the host exactly one
outcome, is no longer in progress, leaves the host's requests alone, and leaves the run state the table of R172 gives
for that outcome. That the requests wait meanwhile is the model's choice (log 7). -/
def Obligations.RunEndsWithExactlyOneOutcome : Prop :=
  ∀ (k : Nat) (s t : State), s.busy = true → s.uncut = true → State.transaction k s = some t →
    t.busy = false ∧ t.requests = s.requests ∧ ∃ o, t.replies = s.replies ++ [.outcome o] ∧
      match o with
      | .halted => t.runState = .halted
      | .needsInput => t.runState = .running
      | .output _ => t.runState = .running
      | .fault f => t.runState = .faulted f

/-- R178: resumption is exact. (1) OUT, with another `Run()` asked for: after the suspension and the start of the next
run transaction the machine is where an instruction that does not suspend would have left it, `ip` behind the OUT and
nothing else of the core changed. (2) IN on an empty queue, with a push and another `Run()` asked for: the machine is
back at the same IN with the Word queued, and runs it. (3) After any suspension the next run transaction begins on the
core as the suspension left it. That `Run()` takes a move of its own is the model's choice (log 6). -/
def Obligations.ResumptionIsExact : Prop :=
  (∀ (s : State) (ws rest : List Word) (a : Operand) (v1 : Word) (rs : List HostAction), s.Executing →
    s.requests = .run :: rs → s.Holds s.ip ws → decode ws = .ok (.out a, rest) → readOperand s a = .ok v1 →
    ∃ t, step s = .next t ∧ t.busy = false ∧ step t = .next { s with
      ip := s.ip + 2, requests := rs, replies := s.replies ++ [.outcome (.output v1)] }) ∧
  (∀ (s : State) (ws rest : List Word) (d : Operand) (d1 : Nat) (v : Word) (rs : List HostAction), s.Executing →
    s.requests = .push v :: .run :: rs → s.Holds s.ip ws → decode ws = .ok (.inp d, rest) →
    writeAddr s 1 d = .ok d1 → s.inq = [] → (∀ n, s.cfg.inqDepth = some n → 0 < n) →
    ∃ t u w, step s = .next t ∧ t.busy = false ∧ step t = .next u ∧ step u = .next w ∧
      w = { s with inq := [v], requests := rs, replies := s.replies ++ [.outcome .needsInput, .accepted] } ∧
      (w.uncut = true → ∃ x, step w = .next x ∧ x.mem.read d1 = v ∧ x.inq = [] ∧ x.ip = s.ip + 2)) ∧
  (∀ (s t : State) (rs : List HostAction), s.Executing → s.requests = .run :: rs → step s = .next t →
    t.busy = false → t.runState = .running →
    ∃ u, step t = .next u ∧ u.SameCore t ∧ u.busy = true ∧ u.requests = rs ∧ u.replies = t.replies)

/-- R171, R242: between run transactions `Run()` puts one in progress, and with nothing asked for the core is idle.
That the request takes a step of its own is the model's choice (log 6). -/
def Obligations.HostStartsTheRun : Prop :=
  (∀ (s : State) (rs : List HostAction), s.busy = false → s.requests = .run :: rs →
    step s = .next { s with busy := true, requests := rs }) ∧
  (∀ s : State, s.busy = false → s.requests = [] → step s = .next s)

/-- R176: a push appends to the tail when the queue has room, whatever the run state, and is refused and changes
nothing of the core when it has not. -/
def Obligations.PushAppendsWhenThereIsRoom : Prop :=
  ∀ (s : State) (v : Word) (rs : List HostAction), s.busy = false → s.requests = .push v :: rs →
    ((∀ n, s.cfg.inqDepth = some n → s.inq.length < n) → step s = .next { s with
      inq := s.inq ++ [v], requests := rs, replies := s.replies ++ [.accepted] }) ∧
    (∀ n, s.cfg.inqDepth = some n → n ≤ s.inq.length → step s = .next { s with
      requests := rs, replies := s.replies ++ [.refused .queueFull] })

/-- R179: a peek inside memory hands over the cell, outside it is refused; neither changes the core. The
names of the answers are the model's (log 19). -/
def Obligations.PeekReadsOneCell : Prop :=
  ∀ (s : State) (a : Int) (rs : List HostAction), s.busy = false → s.requests = .peek a :: rs →
    (0 ≤ a → a < s.cfg.memDepth → step s = .next { s with
      requests := rs, replies := s.replies ++ [.word (s.mem.read a.toNat)] }) ∧
    (a < 0 ∨ (s.cfg.memDepth : Int) ≤ a → step s = .next { s with
      requests := rs, replies := s.replies ++ [.refused .noSuchCell] })

/-- R240, R241: `Reset(image)` loads the image, clears every other cell and sets every register, in any run state;
only the parameters and the host's side stay. A reset meant to cut a run is the same where none is in progress
(log 8). -/
def Obligations.ResetLoadsTheImage : Prop :=
  ∀ (s : State) (image : List Int) (rs : List HostAction), s.busy = false →
    (s.requests = .reset image :: rs ∨ ∃ n, s.requests = .resetCutting n image :: rs) →
    (∀ z ∈ image, wordMin ≤ z ∧ z ≤ wordMax) → image.length ≤ s.cfg.memDepth →
    ∃ t, step s = .next t ∧ (∀ a, ∀ h : a < image.length, (t.mem.read a).toInt = image[a]) ∧
      (∀ a, image.length ≤ a → t.mem.read a = 0) ∧
      t = { cfg := s.cfg, ip := 0, rb := 0, mem := t.mem, inq := [], runState := .running, busy := false,
            requests := rs, replies := s.replies ++ [.accepted] }

/-- R243, R80: an image with an entry that is no Word, and an image that is too long, is refused whole, and no core
fault is recorded; a reset meant to cut a run is the same where none is in progress (log 8). Which of the two a bad
image of both kinds is refused for is the model's choice (log 9), and so is the name `entryNotWord` (log 19). -/
def Obligations.BadImageIsRefused : Prop :=
  ∀ (s : State) (image : List Int) (rs : List HostAction), s.busy = false →
    (s.requests = .reset image :: rs ∨ ∃ n, s.requests = .resetCutting n image :: rs) →
    ((∃ z ∈ image, z < wordMin ∨ wordMax < z) → step s = .next { s with
      requests := rs, replies := s.replies ++ [.refused .entryNotWord] }) ∧
    ((∀ z ∈ image, wordMin ≤ z ∧ z ≤ wordMax) → s.cfg.memDepth < image.length → step s = .next { s with
      requests := rs, replies := s.replies ++ [.refused .loadOverflow] })

/-- R177, R240, R241: reset with load is the only host action that acts in a run transaction. (1) Its turn come, with
an image that loads, it cuts the run short without an outcome, loads the image, clears every other cell and sets every
register. (2) With an image that does not load it is refused and nothing of the core changes, the run included
(log 9). (3) While it is `n + 1` moves away, the move is the one with nothing asked for. (4) So it is for every other
request. That requests wait, and that the place of the cut is a number in the request, are the model's choices (logs 7
and 8), and so are the names of the answers (log 19). -/
def Obligations.OnlyResetCutsARun : Prop :=
  ∀ s : State, s.busy = true →
    (∀ image rs, s.requests = .resetCutting 0 image :: rs → (∀ z ∈ image, wordMin ≤ z ∧ z ≤ wordMax) →
      image.length ≤ s.cfg.memDepth → ∃ t, step s = .next t ∧
        (∀ a, ∀ h : a < image.length, (t.mem.read a).toInt = image[a]) ∧
        (∀ a, image.length ≤ a → t.mem.read a = 0) ∧
        t = { cfg := s.cfg, ip := 0, rb := 0, mem := t.mem, inq := [], runState := .running, busy := false,
              requests := rs, replies := s.replies ++ [.accepted] }) ∧
    (∀ image rs, s.requests = .resetCutting 0 image :: rs →
      ((∃ z ∈ image, z < wordMin ∨ wordMax < z) → step s = .next { s with
        requests := rs, replies := s.replies ++ [.refused .entryNotWord] }) ∧
      ((∀ z ∈ image, wordMin ≤ z ∧ z ≤ wordMax) → s.cfg.memDepth < image.length → step s = .next { s with
        requests := rs, replies := s.replies ++ [.refused .loadOverflow] })) ∧
    (∀ n image rs, s.requests = .resetCutting (n + 1) image :: rs →
      ∃ u, step { s with requests := [] } = .next u ∧
        step s = .next { u with requests := .resetCutting n image :: rs }) ∧
    (s.uncut = true →
      ∃ u, step { s with requests := [] } = .next u ∧ step s = .next { u with requests := s.requests })

/-- R201, R181: the numbers on the status ports, 0 where an outcome has no data or no information. -/
def Obligations.StatusPortNumbers : Prop :=
  RunOutcome.halted.stKind = 1 ∧ RunOutcome.needsInput.stKind = 2 ∧ (∀ v, (RunOutcome.output v).stKind = 3) ∧
  (∀ f, (RunOutcome.fault f).stKind = 4 ∧ (RunOutcome.fault f).stData = BitVec.ofNat 64 f.code) ∧
  (∀ v, (RunOutcome.output v).stData = v ∧ (RunOutcome.output v).stInfo = 0) ∧
  RunOutcome.halted.stData = 0 ∧ RunOutcome.halted.stInfo = 0 ∧
  RunOutcome.needsInput.stData = 0 ∧ RunOutcome.needsInput.stInfo = 0 ∧
  (∀ a, (Fault.negativeAddress a).code = 1 ∧ (Fault.negativeAddress a).info = a) ∧
  (∀ c, (Fault.unknownOpcode c).code = 2 ∧ (Fault.unknownOpcode c).info = c) ∧
  (∀ k, (Fault.invalidWriteTarget k).code = 3 ∧ (Fault.invalidWriteTarget k).info = k) ∧
  (∀ a, (Fault.addressOverflow a).code = 4 ∧ (Fault.addressOverflow a).info = a) ∧
  (∀ k d : Nat, (Fault.invalidMode k d).code = 5 ∧ (Fault.invalidMode k d).info = 10 * k + d)

/-- R181: the 65 bits of `st_info`, read as a signed number, are the information of every fault that can be
recorded (R201). -/
def Obligations.StatusInfoFitsItsPort : Prop :=
  ∀ (depth : Nat) (f : Fault), f.Legal depth → (RunOutcome.fault f).stInfo.toInt = f.info

/-- R181: the ports' view of the core. `in_ready` is 1 exactly when no run transaction is in progress and the queue
has room, and then a push is taken; `pk_data` is the cell `pk_addr` when no run transaction is in progress; the status
ports present the outcome of the run transaction that has just ended, and nothing while one is in progress. How long
an outcome stays presented, and that `pk_data` has no value in the cases R181 leaves out, are the model's (log 20). -/
def Obligations.PortsShowTheCore : Prop :=
  (∀ s : State, s.inReady = true ↔ s.busy = false ∧ ∀ n, s.cfg.inqDepth = some n → s.inq.length < n) ∧
  (∀ (s : State) (v : Word) (rs : List HostAction), s.inReady = true → s.requests = .push v :: rs →
    ∃ t, step s = .next t ∧ t.inq = s.inq ++ [v]) ∧
  (∀ (s : State) (a : Nat), s.busy = false →
    (a < s.cfg.memDepth → s.peekData a = some (s.mem.read a)) ∧ (s.cfg.memDepth ≤ a → s.peekData a = none)) ∧
  (∀ (s : State) (a : Nat), s.busy = true → s.presented = none ∧ s.peekData a = none) ∧
  (∀ (s : State) (o : RunOutcome), s.busy = false →
    (s.presented = some o ↔ s.replies.getLast? = some (.outcome o))) ∧
  (∀ (s t : State) (rs : List HostAction), s.LoopsWith rs → step s = .next t → t.busy = false →
    ∃ o, t.presented = some o ∧ t.replies = s.replies ++ [.outcome o])
end

