-- ==== Sys2Proof/Laws/Decode.lean ====
section
/-! SUPPORT. The laws of the integer helpers and of the decoder of one instruction word. -/

namespace Sys2Proof

/-! ## Words and integers -/

theorem wrap64_toInt (w : Word) : wrap64 w.toInt = w := by simp [wrap64]

theorem toInt_range (w : Word) : -2 ^ 63 ≤ w.toInt ∧ w.toInt < 2 ^ 63 := by
  have h := w.isLt
  rw [BitVec.toInt_eq_toNat_cond]
  split <;> constructor <;> omega

theorem toInt_wrap64_of_range {z : Int} (h1 : -2 ^ 63 ≤ z) (h2 : z < 2 ^ 63) : (wrap64 z).toInt = z := by
  rw [wrap64, BitVec.toInt_ofInt, Int.bmod_def]
  split <;> omega

/-! ## Division and digits -/

theorem trem_eq_tmod (a b : Int) : trem a b = Int.tmod a b := by
  rw [trem, tdiv, Int.tmod_def]

theorem digit_of_nonneg {z : Int} (h : 0 ≤ z) (k : Nat) : digit z k = z / 10 ^ k % 10 := by
  have hp : (0 : Int) ≤ 10 ^ k := by positivity
  rw [digit, tdiv, Int.tdiv_eq_ediv_of_nonneg h, trem_eq_tmod,
    Int.tmod_eq_emod_of_nonneg (Int.ediv_nonneg h hp)]

theorem trem_of_nonneg {z : Int} (h : 0 ≤ z) (b : Int) : trem z b = z % b := by
  rw [trem_eq_tmod, Int.tmod_eq_emod_of_nonneg h]

/-- The remainder of a negative word by 100 is not positive (R69). -/
theorem trem_neg {z : Int} (h : z < 0) : -99 ≤ trem z 100 ∧ trem z 100 ≤ 0 := by
  have h1 := Int.neg_tmod z 100
  have h2 : (-z).tmod 100 = -z % 100 := Int.tmod_eq_emod_of_nonneg (by omega)
  rw [trem_eq_tmod]
  omega

/-! ## The opcode map -/

theorem Opcode.ofCode_code (op : Opcode) : Opcode.ofCode op.code = some op := by
  cases op <;> rfl

theorem Opcode.code_of_ofCode {c : Int} {op : Opcode} (h : Opcode.ofCode c = some op) : c = op.code := by
  unfold Opcode.ofCode at h
  repeat' split at h
  all_goals first
    | (obtain rfl := Option.some.inj h; simpa [Opcode.code])
    | cases h

theorem Opcode.ofCode_nonpos {c : Int} (h : c ≤ 0) : Opcode.ofCode c = none := by
  cases hc : Opcode.ofCode c with
  | none => rfl
  | some op =>
    have := Opcode.code_of_ofCode hc
    cases op <;> simp only [Opcode.code] at this <;> omega

theorem Mode.ofDigit_code (m : Mode) : Mode.ofDigit m.code = some m := by
  cases m <;> rfl

theorem Mode.code_of_ofDigit {d : Nat} {m : Mode} (h : Mode.ofDigit d = some m) : d = m.code := by
  unfold Mode.ofDigit at h
  repeat' split at h
  all_goals first
    | (obtain rfl := Option.some.inj h; simpa [Mode.code])
    | cases h

theorem Mode.ofDigit_eq_none {d : Nat} : Mode.ofDigit d = none ↔ 3 ≤ d := by
  unfold Mode.ofDigit
  repeat' split
  all_goals simp
  all_goals omega

/-- A mode digit is a decimal digit. -/
theorem modeDigit_le_nine (w : Word) (k : Nat) : modeDigit w k ≤ 9 := by
  have h : digit w.toInt (k + 1) ≤ 9 := by
    rw [digit, trem_eq_tmod]
    have := Int.tmod_lt_of_pos (tdiv w.toInt (10 ^ (k + 1))) (show (0 : Int) < 10 by norm_num)
    omega
  unfold modeDigit
  omega

/-! ## The decoder -/

theorem checkMode_error {h : Head} {k : Nat} {f : DecodeFault} (e : checkMode h k = .error f) :
    k ≤ h.op.operandCount ∧ 3 ≤ h.digit k ∧ f = .invalidMode k (h.digit k) := by
  unfold checkMode at e
  split at e
  · next hk => cases e; exact ⟨hk.1, hk.2, rfl⟩
  · cases e

theorem checkMode_ok {h : Head} {k : Nat} (e : checkMode h k = .ok ()) (hk : k ≤ h.op.operandCount) :
    h.digit k ≤ 2 := by
  unfold checkMode at e
  split at e
  · cases e
  · next hn => omega

theorem checkMode_legal {h : Head} {k : Nat} (hd : k ≤ h.op.operandCount → h.digit k ≤ 2) :
    checkMode h k = .ok () := by
  unfold checkMode
  rw [if_neg]
  omega

theorem checkMode_illegal {h : Head} {k : Nat} (hk : k ≤ h.op.operandCount) (hd : 3 ≤ h.digit k) :
    checkMode h k = .error (.invalidMode k (h.digit k)) := by
  unfold checkMode
  rw [if_pos ⟨hk, hd⟩]

theorem checkDest_ok {h g : Head} (e : checkDest h = .ok g) :
    g = h ∧ ∀ d, h.op.destIndex = some d → h.digit d ≠ 1 := by
  unfold checkDest at e
  split at e
  · next hn => cases e; exact ⟨rfl, by simp [hn]⟩
  · next d hd =>
    split at e
    · cases e
    · next hm => cases e; exact ⟨rfl, fun d' hd' => by rw [hd] at hd'; cases hd'; exact hm⟩

theorem checkDest_error {h : Head} {f : DecodeFault} (e : checkDest h = .error f) :
    ∃ d, h.op.destIndex = some d ∧ h.digit d = 1 ∧ f = .invalidWriteTarget d := by
  unfold checkDest at e
  split at e
  · cases e
  · next d hd =>
    split at e
    · next hm => cases e; exact ⟨d, hd, hm, rfl⟩
    · cases e

theorem Opcode.operandCount_le (op : Opcode) : op.operandCount ≤ 3 := by cases op <;> decide

/-- The write operand is one of the operands the instruction has. -/
theorem Opcode.destIndex_range {op : Opcode} {d : Nat} (h : op.destIndex = some d) : 1 ≤ d ∧ d ≤ op.operandCount := by
  cases op <;> cases h <;> decide

/-- A record that passes the tests is unchanged: every used digit selects a mode, and the write operand's is not
Immediate. -/
theorem checkHead_ok {h g : Head} (e : checkHead h = .ok g) :
    g = h ∧ (∀ k, 1 ≤ k → k ≤ h.op.operandCount → h.digit k ≤ 2) ∧
      ∀ d, h.op.destIndex = some d → h.digit d ≠ 1 := by
  unfold checkHead at e
  cases h1 : checkMode h 1 with
  | error f => rw [h1] at e; cases e
  | ok u1 =>
    cases h2 : checkMode h 2 with
    | error f => rw [h1, h2] at e; cases e
    | ok u2 =>
      cases h3 : checkMode h 3 with
      | error f => rw [h1, h2, h3] at e; cases e
      | ok u3 =>
        rw [h1, h2, h3] at e
        obtain ⟨rfl, hd⟩ := checkDest_ok e
        refine ⟨rfl, fun k hk1 hk => ?_, hd⟩
        have := g.op.operandCount_le
        obtain rfl | rfl | rfl : k = 1 ∨ k = 2 ∨ k = 3 := by omega
        · exact checkMode_ok h1 hk
        · exact checkMode_ok h2 hk
        · exact checkMode_ok h3 hk

/-- The lowest used digit above 2 is the fault of a record that has one. -/
theorem checkHead_invalidMode {h : Head} {k : Nat} (h1 : 1 ≤ k) (hk : k ≤ h.op.operandCount) (hd : 3 ≤ h.digit k)
    (hlow : ∀ j, 1 ≤ j → j < k → h.digit j ≤ 2) : checkHead h = .error (.invalidMode k (h.digit k)) := by
  have hlegal : ∀ j, 1 ≤ j → j < k → checkMode h j = .ok () := fun j hj hjk => checkMode_legal fun _ => hlow j hj hjk
  have hbad := checkMode_illegal hk hd
  have := h.op.operandCount_le
  obtain rfl | rfl | rfl : k = 1 ∨ k = 2 ∨ k = 3 := by omega
  · rw [checkHead, hbad]; rfl
  · rw [checkHead, hlegal 1 (by omega) (by omega), hbad]; rfl
  · rw [checkHead, hlegal 1 (by omega) (by omega), hlegal 2 (by omega) (by omega), hbad]; rfl

/-- With its used digits legal, a record fails only on its write operand. -/
theorem checkHead_legal {h : Head} (hd : ∀ k, 1 ≤ k → k ≤ h.op.operandCount → h.digit k ≤ 2) :
    checkHead h = checkDest h := by
  rw [checkHead, checkMode_legal (hd 1 (by omega)), checkMode_legal (hd 2 (by omega)),
    checkMode_legal (hd 3 (by omega))]
  rfl

/-- The faults of the tests of a record. -/
theorem checkHead_error {h : Head} {f : DecodeFault} (e : checkHead h = .error f) :
    (∃ k, 1 ≤ k ∧ k ≤ h.op.operandCount ∧ 3 ≤ h.digit k ∧ (∀ j, 1 ≤ j → j < k → h.digit j ≤ 2) ∧
      f = .invalidMode k (h.digit k)) ∨
    (∃ d, h.op.destIndex = some d ∧ f = .invalidWriteTarget d) := by
  by_cases hall : ∀ k, 1 ≤ k → k ≤ h.op.operandCount → h.digit k ≤ 2
  · rw [checkHead_legal hall] at e
    obtain ⟨d, hd, -, rfl⟩ := checkDest_error e
    exact .inr ⟨d, hd, rfl⟩
  · have hex : ∃ k, 1 ≤ k ∧ k ≤ h.op.operandCount ∧ 3 ≤ h.digit k := by
      by_contra hn
      exact hall fun k h1 hk => by
        by_contra hc
        exact hn ⟨k, h1, hk, by omega⟩
    classical
    obtain ⟨h1, hk, hd⟩ := Nat.find_spec hex
    have hlow : ∀ j, 1 ≤ j → j < Nat.find hex → h.digit j ≤ 2 := fun j hj hjk => by
      have := Nat.find_min hex hjk
      by_contra hc
      exact this ⟨hj, by omega, by omega⟩
    rw [checkHead_invalidMode h1 hk hd hlow] at e
    cases e
    exact .inl ⟨_, h1, hk, hd, hlow, rfl⟩

theorem Head.ofWord_digit (w : Word) (op : Opcode) {k : Nat} (h1 : 1 ≤ k) (h3 : k ≤ 3) :
    (Head.ofWord w op).digit k = modeDigit w k := by
  obtain rfl | rfl | rfl : k = 1 ∨ k = 2 ∨ k = 3 := by omega
  all_goals rfl

theorem decodeHead_code {w : Word} {op : Opcode} (h : opcodeField w = op.code) :
    decodeHead w = checkHead (Head.ofWord w op) := by
  rw [decodeHead, h, Opcode.ofCode_code]

/-- What an instruction word that decodes is: its opcode field names the operation, its record holds its digits, every
used one selects a mode, and the write operand's is not Immediate. -/
theorem decodeHead_ok {w : Word} {h : Head} (e : decodeHead w = .ok h) :
    opcodeField w = h.op.code ∧ h = Head.ofWord w h.op ∧
      (∀ k, 1 ≤ k → k ≤ h.op.operandCount → h.digit k ≤ 2) ∧ ∀ d, h.op.destIndex = some d → h.digit d ≠ 1 := by
  unfold decodeHead at e
  split at e
  · cases e
  · next op hop =>
    obtain ⟨rfl, hd, hw⟩ := checkHead_ok e
    exact ⟨Opcode.code_of_ofCode hop, rfl, hd, hw⟩

/-- The faults of the decoder, with what each one says of the word (R67). -/
theorem decodeHead_error {w : Word} {f : DecodeFault} (e : decodeHead w = .error f) :
    (f = .unknownOpcode (opcodeField w) ∧ Opcode.ofCode (opcodeField w) = none) ∨
    (∃ k, 1 ≤ k ∧ k ≤ 3 ∧ 3 ≤ modeDigit w k ∧ f = .invalidMode k (modeDigit w k)) ∨
    (∃ (op : Opcode) (d : Nat), op.destIndex = some d ∧ f = .invalidWriteTarget d) := by
  unfold decodeHead at e
  split at e
  · next hop => cases e; exact .inl ⟨rfl, hop⟩
  · next op hop =>
    rcases checkHead_error e with ⟨k, h1, hk, hd, -, rfl⟩ | ⟨d, hd, rfl⟩
    · have hk3 : k ≤ 3 := le_trans hk (Opcode.operandCount_le _)
      rw [Head.ofWord_digit w op h1 hk3] at hd ⊢
      exact .inr (.inl ⟨k, h1, hk3, hd, rfl⟩)
    · exact .inr (.inr ⟨op, d, hd, rfl⟩)

/-- A digit of at most 2 is the digit of the mode it selects. -/
theorem Head.mode_code {h : Head} {k : Nat} (hd : h.digit k ≤ 2) : (h.mode k).code = h.digit k := by
  have : h.digit k = 0 ∨ h.digit k = 1 ∨ h.digit k = 2 := by omega
  rcases this with e | e | e <;> rw [Head.mode, e] <;> rfl

/-- The operation of the instruction a record makes. -/
theorem Head.instr_op (h : Head) (ps : List Word) : (h.instr ps).op = h.op := by
  obtain ⟨op, m1, m2, m3⟩ := h
  cases op <;> rfl

/-- The decoder gives well-formed instructions only (R72). -/
theorem Head.instr_wellFormed {w : Word} {h : Head} (e : decodeHead w = .ok h) (ps : List Word) :
    (h.instr ps).WellFormed := by
  obtain ⟨-, -, hused, hd⟩ := decodeHead_ok e
  have hm : ∀ d, h.op.destIndex = some d → h.mode d ≠ .immediate := fun d hdest hi => by
    obtain ⟨h1, hk⟩ := Opcode.destIndex_range hdest
    have hc := Head.mode_code (hused d h1 hk)
    rw [hi] at hc
    exact hd d hdest hc.symm
  have hwr : ∀ (m : Mode) (x : Word), m ≠ .immediate → (Operand.mk m x).writable = true := fun m x hne => by
    cases m
    · rfl
    · exact absurd rfl hne
    · rfl
  obtain ⟨op, m1, m2, m3⟩ := h
  cases op <;> first | rfl | exact hwr _ _ (hm _ rfl)

/-- Only the operand words of the instruction are looked at. -/
theorem Head.instr_congr (h : Head) {ps qs : List Word}
    (e : ∀ k, k < h.op.operandCount → ps.getD k 0 = qs.getD k 0) : h.instr ps = h.instr qs := by
  obtain ⟨op, m1, m2, m3⟩ := h
  cases op <;> simp only [Opcode.operandCount] at e <;> simp only [Head.instr]
  all_goals first
    | simp only [e 0 (by omega), e 1 (by omega), e 2 (by omega)]
    | simp only [e 0 (by omega), e 1 (by omega)]
    | simp only [e 0 (by omega)]

theorem decode_ok {ws rest : List Word} {i : Instr} (e : decode ws = .ok (i, rest)) :
    ∃ w ps h, ws = w :: ps ∧ decodeHead w = .ok h ∧ h.op.operandCount ≤ ps.length ∧ i = h.instr ps ∧
      rest = ps.drop h.op.operandCount := by
  cases ws with
  | nil => cases e
  | cons w ps =>
    simp only [decode] at e
    split at e
    · cases e
    · next h hh =>
      split at e
      · cases e
      · next hn => cases e; exact ⟨w, ps, h, rfl, hh, by omega, rfl, rfl⟩

end Sys2Proof
end

