-- ==== Sys2Proof/Laws/Memory.lean ====
section
/-! SUPPORT. The laws of the memory array: reads after writes and loads, and that every operation keeps the
canonical form and the range of addresses. -/

namespace Sys2Proof.Machine

@[simp] theorem Memory.read_nil (a : Nat) : Memory.read [] a = 0 := rfl

theorem Memory.read_cons (c : Nat × Word) (m : Memory) (a : Nat) :
    Memory.read (c :: m) a = if c.1 = a then c.2 else Memory.read m a := rfl

theorem Memory.read_dropCell_same (m : Memory) (a : Nat) : (m.dropCell a).read a = 0 := by
  induction m with
  | nil => rfl
  | cons c m ih =>
    by_cases h : c.1 = a
    · simpa [Memory.dropCell, h] using ih
    · simpa [Memory.dropCell, h, Memory.read_cons] using ih

theorem Memory.read_dropCell_other (m : Memory) {a x : Nat} (hx : x ≠ a) : (m.dropCell a).read x = m.read x := by
  induction m with
  | nil => rfl
  | cons c m ih =>
    by_cases h : c.1 = a
    · have hc : ¬ a = x := fun e => hx e.symm
      simpa [Memory.dropCell, h, Memory.read_cons, hc] using ih
    · by_cases hc : c.1 = x
      · simp [Memory.dropCell, hc, hx, Memory.read_cons]
      · simpa [Memory.dropCell, h, Memory.read_cons, hc] using ih

theorem Memory.read_putCell_other (m : Memory) {a x : Nat} (v : Word) (hx : x ≠ a) :
    (m.putCell a v).read x = m.read x := by
  have hax : ¬ a = x := fun e => hx e.symm
  induction m with
  | nil => simp [Memory.putCell, Memory.read_cons, hax]
  | cons c m ih =>
    by_cases h : a < c.1
    · simp [Memory.putCell, h, Memory.read_cons, hax]
    · simp [Memory.putCell, h, Memory.read_cons, ih]

theorem Memory.read_putCell_same (m : Memory) (a : Nat) (v : Word) (hm : ∀ c ∈ m, c.1 ≠ a) :
    (m.putCell a v).read a = v := by
  induction m with
  | nil => simp [Memory.putCell, Memory.read_cons]
  | cons c m ih =>
    by_cases h : a < c.1
    · simp [Memory.putCell, h, Memory.read_cons]
    · have hc : ¬ c.1 = a := hm c (by simp)
      have hm' : ∀ d ∈ m, d.1 ≠ a := fun d hd => hm d (by simp [hd])
      simpa [Memory.putCell, h, Memory.read_cons, hc] using ih hm'

theorem Memory.ne_of_mem_dropCell {m : Memory} {a : Nat} {c : Nat × Word} (h : c ∈ m.dropCell a) : c.1 ≠ a := by
  simpa using (List.mem_filter.1 h).2

theorem Memory.read_write_same (m : Memory) (a : Nat) (v : Word) : (m.write a v).read a = v := by
  unfold Memory.write
  split
  · next h => rw [h]; exact Memory.read_dropCell_same m a
  · exact Memory.read_putCell_same _ a v fun c hc => Memory.ne_of_mem_dropCell hc

theorem Memory.read_write_other (m : Memory) {a x : Nat} (v : Word) (hx : x ≠ a) :
    (m.write a v).read x = m.read x := by
  unfold Memory.write
  split
  · exact Memory.read_dropCell_other m hx
  · rw [Memory.read_putCell_other _ v hx, Memory.read_dropCell_other m hx]

/-- The canonical form in the library's terms. -/
theorem Memory.wf_iff (m : Memory) :
    m.wf = true ↔ m.Pairwise (fun c d => c.1 < d.1) ∧ ∀ c ∈ m, c.2 ≠ Memory.unlisted := by
  induction m with
  | nil => simp [Memory.wf]
  | cons c m ih =>
    cases m with
    | nil => simp [Memory.wf]
    | cons d m =>
      simp only [Memory.wf, Bool.and_eq_true, decide_eq_true_eq, ih, List.pairwise_cons, List.mem_cons,
        forall_eq_or_imp]
      constructor
      · rintro ⟨⟨hc, hcd⟩, ⟨hd, hm⟩, hv⟩
        exact ⟨⟨⟨hcd, fun e he => hcd.trans (hd e he)⟩, hd, hm⟩, hc, hv⟩
      · rintro ⟨⟨⟨hcd, -⟩, hd, hm⟩, hc, hv⟩
        exact ⟨⟨hc, hcd⟩, ⟨hd, hm⟩, hv⟩

theorem Memory.mem_putCell {m : Memory} {a : Nat} {v : Word} {c : Nat × Word} (h : c ∈ Memory.putCell m a v) :
    c = (a, v) ∨ c ∈ m := by
  induction m with
  | nil => simpa [Memory.putCell] using h
  | cons d m ih =>
    by_cases hd : a < d.1
    · simpa [Memory.putCell, hd] using h
    · rcases (by simpa [Memory.putCell, hd] using h : c = d ∨ c ∈ Memory.putCell m a v) with rfl | h'
      · simp
      · rcases ih h' with e | e
        · exact .inl e
        · exact .inr (by simp [e])

theorem Memory.mem_write {m : Memory} {a : Nat} {v : Word} {c : Nat × Word} (h : c ∈ m.write a v) :
    c = (a, v) ∨ c ∈ m := by
  unfold Memory.write at h
  split at h
  · exact .inr (List.mem_of_mem_filter h)
  · exact (Memory.mem_putCell h).imp_right List.mem_of_mem_filter

theorem Memory.pairwise_putCell {m : Memory} {a : Nat} {v : Word} (hm : m.Pairwise fun c d => c.1 < d.1)
    (ha : ∀ c ∈ m, c.1 ≠ a) : (m.putCell a v).Pairwise fun c d => c.1 < d.1 := by
  induction m with
  | nil => simp [Memory.putCell]
  | cons d m ih =>
    obtain ⟨hd, hm'⟩ := List.pairwise_cons.1 hm
    by_cases h : a < d.1
    · simp only [Memory.putCell, if_pos h, List.pairwise_cons]
      refine ⟨fun c hc => ?_, hd, hm'⟩
      rcases List.mem_cons.1 hc with rfl | hc
      · exact h
      · exact h.trans (hd c hc)
    · simp only [Memory.putCell, if_neg h, List.pairwise_cons]
      refine ⟨fun c hc => ?_, ih hm' fun c hc => ha c (by simp [hc])⟩
      rcases Memory.mem_putCell hc with rfl | hc
      · exact lt_of_le_of_ne (not_lt.1 h) (ha d (by simp))
      · exact hd c hc

/-- Every write keeps the canonical form. -/
theorem Memory.wf_write {m : Memory} (hm : m.wf = true) (a : Nat) (v : Word) : (m.write a v).wf = true := by
  obtain ⟨hp, hv⟩ := (Memory.wf_iff m).1 hm
  refine (Memory.wf_iff _).2 ⟨?_, fun c hc => ?_⟩
  · unfold Memory.write
    split
    · exact hp.filter _
    · exact Memory.pairwise_putCell (hp.filter _) fun c hc => Memory.ne_of_mem_dropCell hc
  · by_cases h : v = Memory.unlisted
    · rw [Memory.write, if_pos h] at hc
      exact hv c (List.mem_of_mem_filter hc)
    · rcases Memory.mem_write hc with rfl | hc
      · exact h
      · exact hv c hc

theorem Memory.load_range {a : Nat} {vs : List Word} {c : Nat × Word} (h : c ∈ Memory.load a vs) :
    a ≤ c.1 ∧ c.1 < a + vs.length ∧ c.2 ≠ Memory.unlisted := by
  induction vs generalizing a with
  | nil => simp [Memory.load] at h
  | cons v vs ih =>
    by_cases hv : v = Memory.unlisted
    · rw [Memory.load, if_pos hv] at h
      obtain ⟨h1, h2, h3⟩ := ih h
      exact ⟨by omega, by simp only [List.length_cons]; omega, h3⟩
    · rw [Memory.load, if_neg hv] at h
      rcases List.mem_cons.1 h with rfl | h
      · exact ⟨le_refl _, by simp, hv⟩
      · obtain ⟨h1, h2, h3⟩ := ih h
        exact ⟨by omega, by simp only [List.length_cons]; omega, h3⟩

/-- A loaded memory is in canonical form. -/
theorem Memory.wf_load (a : Nat) (vs : List Word) : (Memory.load a vs).wf = true := by
  refine (Memory.wf_iff _).2 ⟨?_, fun c hc => (Memory.load_range hc).2.2⟩
  induction vs generalizing a with
  | nil => simp [Memory.load]
  | cons v vs ih =>
    by_cases hv : v = Memory.unlisted
    · rw [Memory.load, if_pos hv]; exact ih _
    · rw [Memory.load, if_neg hv, List.pairwise_cons]
      exact ⟨fun c hc => (Memory.load_range hc).1, ih _⟩

/-- A cell below the loaded Words reads 0. -/
theorem Memory.read_load_below {a x : Nat} (vs : List Word) (h : x < a) : (Memory.load a vs).read x = 0 := by
  induction vs generalizing a with
  | nil => rfl
  | cons v vs ih =>
    by_cases hv : v = Memory.unlisted
    · rw [Memory.load, if_pos hv]; exact ih (by omega)
    · rw [Memory.load, if_neg hv, Memory.read_cons, if_neg (by simp only; omega)]; exact ih (by omega)

/-- A loaded memory holds the Words of the list from the address on, and 0 beyond them. -/
theorem Memory.read_load (a k : Nat) (vs : List Word) : (Memory.load a vs).read (a + k) = vs.getD k 0 := by
  induction vs generalizing a k with
  | nil => rfl
  | cons v vs ih =>
    cases k with
    | zero =>
      by_cases hv : v = Memory.unlisted
      · rw [Memory.load, if_pos hv, Memory.read_load_below _ (by omega)]; simpa [Memory.unlisted] using hv.symm
      · simp [Memory.load, if_neg hv, Memory.read_cons]
    | succ k =>
      have e : a + (k + 1) = (a + 1) + k := by omega
      by_cases hv : v = Memory.unlisted
      · rw [Memory.load, if_pos hv, e, ih]; simp
      · rw [Memory.load, if_neg hv, Memory.read_cons, if_neg (by simp only; omega), e, ih]; simp

end Sys2Proof.Machine
end

