-- ==== Sys2Proof/Laws/State.lean ====
section
/-! SUPPORT. What each update of the state does to each field, so that no proof unfolds a record update. -/

namespace Sys2Proof.Machine

@[simp] theorem State.store_cfg (s : State) (a : Nat) (v : Word) : (s.store a v).cfg = s.cfg := rfl
@[simp] theorem State.store_ip (s : State) (a : Nat) (v : Word) : (s.store a v).ip = s.ip := rfl
@[simp] theorem State.store_rb (s : State) (a : Nat) (v : Word) : (s.store a v).rb = s.rb := rfl
@[simp] theorem State.store_mem (s : State) (a : Nat) (v : Word) : (s.store a v).mem = s.mem.write a v := rfl
@[simp] theorem State.store_inq (s : State) (a : Nat) (v : Word) : (s.store a v).inq = s.inq := rfl
@[simp] theorem State.store_runState (s : State) (a : Nat) (v : Word) : (s.store a v).runState = s.runState := rfl
@[simp] theorem State.store_busy (s : State) (a : Nat) (v : Word) : (s.store a v).busy = s.busy := rfl
@[simp] theorem State.store_requests (s : State) (a : Nat) (v : Word) : (s.store a v).requests = s.requests := rfl
@[simp] theorem State.store_replies (s : State) (a : Nat) (v : Word) : (s.store a v).replies = s.replies := rfl

@[simp] theorem State.setIp_cfg (s : State) (n : Nat) : (s.setIp n).cfg = s.cfg := rfl
@[simp] theorem State.setIp_ip (s : State) (n : Nat) : (s.setIp n).ip = n := rfl
@[simp] theorem State.setIp_rb (s : State) (n : Nat) : (s.setIp n).rb = s.rb := rfl
@[simp] theorem State.setIp_mem (s : State) (n : Nat) : (s.setIp n).mem = s.mem := rfl
@[simp] theorem State.setIp_inq (s : State) (n : Nat) : (s.setIp n).inq = s.inq := rfl
@[simp] theorem State.setIp_runState (s : State) (n : Nat) : (s.setIp n).runState = s.runState := rfl
@[simp] theorem State.setIp_busy (s : State) (n : Nat) : (s.setIp n).busy = s.busy := rfl
@[simp] theorem State.setIp_requests (s : State) (n : Nat) : (s.setIp n).requests = s.requests := rfl
@[simp] theorem State.setIp_replies (s : State) (n : Nat) : (s.setIp n).replies = s.replies := rfl

@[simp] theorem State.advance_cfg (s : State) (n : Nat) : (s.advance n).cfg = s.cfg := rfl
@[simp] theorem State.advance_ip (s : State) (n : Nat) : (s.advance n).ip = s.ip + n := rfl
@[simp] theorem State.advance_rb (s : State) (n : Nat) : (s.advance n).rb = s.rb := rfl
@[simp] theorem State.advance_mem (s : State) (n : Nat) : (s.advance n).mem = s.mem := rfl
@[simp] theorem State.advance_inq (s : State) (n : Nat) : (s.advance n).inq = s.inq := rfl
@[simp] theorem State.advance_runState (s : State) (n : Nat) : (s.advance n).runState = s.runState := rfl
@[simp] theorem State.advance_busy (s : State) (n : Nat) : (s.advance n).busy = s.busy := rfl
@[simp] theorem State.advance_requests (s : State) (n : Nat) : (s.advance n).requests = s.requests := rfl
@[simp] theorem State.advance_replies (s : State) (n : Nat) : (s.advance n).replies = s.replies := rfl

@[simp] theorem State.setRb_cfg (s : State) (w : Word) : (s.setRb w).cfg = s.cfg := rfl
@[simp] theorem State.setRb_ip (s : State) (w : Word) : (s.setRb w).ip = s.ip := rfl
@[simp] theorem State.setRb_rb (s : State) (w : Word) : (s.setRb w).rb = w := rfl
@[simp] theorem State.setRb_mem (s : State) (w : Word) : (s.setRb w).mem = s.mem := rfl
@[simp] theorem State.setRb_inq (s : State) (w : Word) : (s.setRb w).inq = s.inq := rfl
@[simp] theorem State.setRb_runState (s : State) (w : Word) : (s.setRb w).runState = s.runState := rfl
@[simp] theorem State.setRb_busy (s : State) (w : Word) : (s.setRb w).busy = s.busy := rfl
@[simp] theorem State.setRb_requests (s : State) (w : Word) : (s.setRb w).requests = s.requests := rfl
@[simp] theorem State.setRb_replies (s : State) (w : Word) : (s.setRb w).replies = s.replies := rfl

@[simp] theorem State.setInq_cfg (s : State) (q : List Word) : (s.setInq q).cfg = s.cfg := rfl
@[simp] theorem State.setInq_ip (s : State) (q : List Word) : (s.setInq q).ip = s.ip := rfl
@[simp] theorem State.setInq_rb (s : State) (q : List Word) : (s.setInq q).rb = s.rb := rfl
@[simp] theorem State.setInq_mem (s : State) (q : List Word) : (s.setInq q).mem = s.mem := rfl
@[simp] theorem State.setInq_inq (s : State) (q : List Word) : (s.setInq q).inq = q := rfl
@[simp] theorem State.setInq_runState (s : State) (q : List Word) : (s.setInq q).runState = s.runState := rfl
@[simp] theorem State.setInq_busy (s : State) (q : List Word) : (s.setInq q).busy = s.busy := rfl
@[simp] theorem State.setInq_requests (s : State) (q : List Word) : (s.setInq q).requests = s.requests := rfl
@[simp] theorem State.setInq_replies (s : State) (q : List Word) : (s.setInq q).replies = s.replies := rfl

@[simp] theorem State.setRunState_cfg (s : State) (r : RunState) : (s.setRunState r).cfg = s.cfg := rfl
@[simp] theorem State.setRunState_ip (s : State) (r : RunState) : (s.setRunState r).ip = s.ip := rfl
@[simp] theorem State.setRunState_rb (s : State) (r : RunState) : (s.setRunState r).rb = s.rb := rfl
@[simp] theorem State.setRunState_mem (s : State) (r : RunState) : (s.setRunState r).mem = s.mem := rfl
@[simp] theorem State.setRunState_inq (s : State) (r : RunState) : (s.setRunState r).inq = s.inq := rfl
@[simp] theorem State.setRunState_runState (s : State) (r : RunState) : (s.setRunState r).runState = r := rfl
@[simp] theorem State.setRunState_busy (s : State) (r : RunState) : (s.setRunState r).busy = s.busy := rfl
@[simp] theorem State.setRunState_requests (s : State) (r : RunState) : (s.setRunState r).requests = s.requests := rfl
@[simp] theorem State.setRunState_replies (s : State) (r : RunState) : (s.setRunState r).replies = s.replies := rfl

@[simp] theorem State.setBusy_cfg (s : State) (b : Bool) : (s.setBusy b).cfg = s.cfg := rfl
@[simp] theorem State.setBusy_ip (s : State) (b : Bool) : (s.setBusy b).ip = s.ip := rfl
@[simp] theorem State.setBusy_rb (s : State) (b : Bool) : (s.setBusy b).rb = s.rb := rfl
@[simp] theorem State.setBusy_mem (s : State) (b : Bool) : (s.setBusy b).mem = s.mem := rfl
@[simp] theorem State.setBusy_inq (s : State) (b : Bool) : (s.setBusy b).inq = s.inq := rfl
@[simp] theorem State.setBusy_runState (s : State) (b : Bool) : (s.setBusy b).runState = s.runState := rfl
@[simp] theorem State.setBusy_busy (s : State) (b : Bool) : (s.setBusy b).busy = b := rfl
@[simp] theorem State.setBusy_requests (s : State) (b : Bool) : (s.setBusy b).requests = s.requests := rfl
@[simp] theorem State.setBusy_replies (s : State) (b : Bool) : (s.setBusy b).replies = s.replies := rfl

@[simp] theorem State.setRequests_cfg (s : State) (rs : List HostAction) : (s.setRequests rs).cfg = s.cfg := rfl
@[simp] theorem State.setRequests_ip (s : State) (rs : List HostAction) : (s.setRequests rs).ip = s.ip := rfl
@[simp] theorem State.setRequests_rb (s : State) (rs : List HostAction) : (s.setRequests rs).rb = s.rb := rfl
@[simp] theorem State.setRequests_mem (s : State) (rs : List HostAction) : (s.setRequests rs).mem = s.mem := rfl
@[simp] theorem State.setRequests_inq (s : State) (rs : List HostAction) : (s.setRequests rs).inq = s.inq := rfl
@[simp] theorem State.setRequests_runState (s : State) (rs : List HostAction) : (s.setRequests rs).runState = s.runState := rfl
@[simp] theorem State.setRequests_busy (s : State) (rs : List HostAction) : (s.setRequests rs).busy = s.busy := rfl
@[simp] theorem State.setRequests_requests (s : State) (rs : List HostAction) : (s.setRequests rs).requests = rs := rfl
@[simp] theorem State.setRequests_replies (s : State) (rs : List HostAction) : (s.setRequests rs).replies = s.replies := rfl

@[simp] theorem State.reply_cfg (s : State) (r : HostReply) : (s.reply r).cfg = s.cfg := rfl
@[simp] theorem State.reply_ip (s : State) (r : HostReply) : (s.reply r).ip = s.ip := rfl
@[simp] theorem State.reply_rb (s : State) (r : HostReply) : (s.reply r).rb = s.rb := rfl
@[simp] theorem State.reply_mem (s : State) (r : HostReply) : (s.reply r).mem = s.mem := rfl
@[simp] theorem State.reply_inq (s : State) (r : HostReply) : (s.reply r).inq = s.inq := rfl
@[simp] theorem State.reply_runState (s : State) (r : HostReply) : (s.reply r).runState = s.runState := rfl
@[simp] theorem State.reply_busy (s : State) (r : HostReply) : (s.reply r).busy = s.busy := rfl
@[simp] theorem State.reply_requests (s : State) (r : HostReply) : (s.reply r).requests = s.requests := rfl
@[simp] theorem State.reply_replies (s : State) (r : HostReply) : (s.reply r).replies = s.replies ++ [r] := rfl

@[simp] theorem State.endRun_cfg (s : State) (o : RunOutcome) : (s.endRun o).cfg = s.cfg := rfl
@[simp] theorem State.endRun_ip (s : State) (o : RunOutcome) : (s.endRun o).ip = s.ip := rfl
@[simp] theorem State.endRun_rb (s : State) (o : RunOutcome) : (s.endRun o).rb = s.rb := rfl
@[simp] theorem State.endRun_mem (s : State) (o : RunOutcome) : (s.endRun o).mem = s.mem := rfl
@[simp] theorem State.endRun_inq (s : State) (o : RunOutcome) : (s.endRun o).inq = s.inq := rfl
@[simp] theorem State.endRun_runState (s : State) (o : RunOutcome) : (s.endRun o).runState = s.runState := rfl
@[simp] theorem State.endRun_busy (s : State) (o : RunOutcome) : (s.endRun o).busy = false := rfl
@[simp] theorem State.endRun_requests (s : State) (o : RunOutcome) : (s.endRun o).requests = s.requests := rfl
@[simp] theorem State.endRun_replies (s : State) (o : RunOutcome) : (s.endRun o).replies = s.replies ++ [.outcome o] := rfl

@[simp] theorem State.faultWith_cfg (s : State) (f : Fault) : (s.faultWith f).cfg = s.cfg := rfl
@[simp] theorem State.faultWith_ip (s : State) (f : Fault) : (s.faultWith f).ip = s.ip := rfl
@[simp] theorem State.faultWith_rb (s : State) (f : Fault) : (s.faultWith f).rb = s.rb := rfl
@[simp] theorem State.faultWith_mem (s : State) (f : Fault) : (s.faultWith f).mem = s.mem := rfl
@[simp] theorem State.faultWith_inq (s : State) (f : Fault) : (s.faultWith f).inq = s.inq := rfl
@[simp] theorem State.faultWith_runState (s : State) (f : Fault) : (s.faultWith f).runState = .faulted f := rfl
@[simp] theorem State.faultWith_busy (s : State) (f : Fault) : (s.faultWith f).busy = false := rfl
@[simp] theorem State.faultWith_requests (s : State) (f : Fault) : (s.faultWith f).requests = s.requests := rfl
@[simp] theorem State.faultWith_replies (s : State) (f : Fault) : (s.faultWith f).replies = s.replies ++ [.outcome (.fault f)] := rfl

@[simp] theorem State.load_cfg (s : State) (image : List Int) : (s.load image).cfg = s.cfg := rfl
@[simp] theorem State.load_ip (s : State) (image : List Int) : (s.load image).ip = 0 := rfl
@[simp] theorem State.load_rb (s : State) (image : List Int) : (s.load image).rb = 0 := rfl
@[simp] theorem State.load_mem (s : State) (image : List Int) : (s.load image).mem = Memory.load 0 (image.map wrap64) := rfl
@[simp] theorem State.load_inq (s : State) (image : List Int) : (s.load image).inq = [] := rfl
@[simp] theorem State.load_runState (s : State) (image : List Int) : (s.load image).runState = .running := rfl
@[simp] theorem State.load_busy (s : State) (image : List Int) : (s.load image).busy = false := rfl
@[simp] theorem State.load_requests (s : State) (image : List Int) : (s.load image).requests = s.requests := rfl
@[simp] theorem State.load_replies (s : State) (image : List Int) : (s.load image).replies = s.replies := rfl

end Sys2Proof.Machine
end

