-- ==== Sys2Proof/Laws/Ops.lean ====
section
/-! SUPPORT. What each shared operation can do: one lemma per answer, which later proofs cite. -/

namespace Sys2Proof.Machine

/-- A sequence of two checked computations ends well only where both do. -/
theorem bind_ok {α β : Type} {x : Except Fault α} {f : α → Except Fault β} {r : β} (h : (x >>= f) = .ok r) :
    ∃ v, x = .ok v ∧ f v = .ok r := by
  cases x with
  | error e => cases h
  | ok v => exact ⟨v, rfl, h⟩

/-- A sequence of two checked computations raises the first one's fault, or else the second one's. -/
theorem bind_error {α β : Type} {x : Except Fault α} {f : α → Except Fault β} {e : Fault}
    (h : (x >>= f) = .error e) : x = .error e ∨ ∃ v, x = .ok v ∧ f v = .error e := by
  cases x with
  | error e' => cases h; exact .inl rfl
  | ok v => exact .inr ⟨v, rfl, h⟩

@[simp] theorem ok_bind {α β : Type} (v : α) (f : α → Except Fault β) : ((.ok v : Except Fault α) >>= f) = f v := rfl

@[simp] theorem error_bind {α β : Type} (e : Fault) (f : α → Except Fault β) :
    ((.error e : Except Fault α) >>= f) = .error e := rfl

@[simp] theorem State.commit_ok (s t : State) : s.commit (.ok t) = .next t := rfl

@[simp] theorem State.commit_error (s : State) (f : Fault) : s.commit (.error f) = .next (s.faultWith f) := rfl

/-- A step commits what it computed or takes one fault. -/
theorem State.commit_cases {s t : State} {r : Except Fault State} (h : s.commit r = .next t) :
    r = .ok t ∨ ∃ f, r = .error f ∧ t = s.faultWith f := by
  cases r with
  | ok u => cases h; exact .inl rfl
  | error f => cases h; exact .inr ⟨f, rfl, rfl⟩

/-! ## Addresses and accesses -/

theorem checkAddr_ok {s : State} {a : Int} {n : Nat} (h : checkAddr s a = .ok n) :
    0 ≤ a ∧ a < s.cfg.memDepth ∧ n = a.toNat := by
  unfold checkAddr at h
  split at h
  · cases h
  · split at h
    · cases h
    · cases h; exact ⟨by omega, by omega, rfl⟩

theorem checkAddr_error {s : State} {a : Int} {f : Fault} (h : checkAddr s a = .error f) :
    (a < 0 ∧ f = .negativeAddress a) ∨ ((s.cfg.memDepth : Int) ≤ a ∧ f = .addressOverflow a) := by
  unfold checkAddr at h
  split at h
  · next h0 => cases h; exact .inl ⟨h0, rfl⟩
  · split at h
    · next h1 => cases h; exact .inr ⟨h1, rfl⟩
    · cases h

theorem checkAddr_inside {s : State} {a : Int} (h0 : 0 ≤ a) (h1 : a < s.cfg.memDepth) :
    checkAddr s a = .ok a.toNat := by
  rw [checkAddr, if_neg (by omega), if_neg (by omega)]

theorem checkAddr_above {s : State} {a : Int} (h0 : 0 ≤ a) (h1 : (s.cfg.memDepth : Int) ≤ a) :
    checkAddr s a = .error (.addressOverflow a) := by
  rw [checkAddr, if_neg (by omega), if_pos h1]

theorem memRead_ok {s : State} {a : Int} {v : Word} (h : memRead s a = .ok v) :
    0 ≤ a ∧ a < s.cfg.memDepth ∧ v = s.mem.read a.toNat := by
  unfold memRead at h
  split at h
  · next n hn => obtain ⟨h0, h1, rfl⟩ := checkAddr_ok hn; cases h; exact ⟨h0, h1, rfl⟩
  · cases h

theorem memRead_error {s : State} {a : Int} {f : Fault} (h : memRead s a = .error f) :
    (a < 0 ∧ f = .negativeAddress a) ∨ ((s.cfg.memDepth : Int) ≤ a ∧ f = .addressOverflow a) := by
  unfold memRead at h
  split at h
  · cases h
  · next g hg => cases h; exact checkAddr_error hg

theorem memRead_cell {s : State} {a : Nat} (h : a < s.cfg.memDepth) : memRead s (a : Int) = .ok (s.mem.read a) := by
  rw [memRead, checkAddr_inside (by omega) (by omega)]; rfl

theorem memRead_above {s : State} {a : Nat} (h : s.cfg.memDepth ≤ a) :
    memRead s (a : Int) = .error (.addressOverflow (a : Int)) := by
  rw [memRead, checkAddr_above (by omega) (by omega)]

/-! ## Operands -/

theorem readOperand_error {s : State} {o : Operand} {f : Fault} (h : readOperand s o = .error f) :
    ∃ e, effectiveAddr s o = some e ∧
      ((e < 0 ∧ f = .negativeAddress e) ∨ ((s.cfg.memDepth : Int) ≤ e ∧ f = .addressOverflow e)) := by
  unfold readOperand at h
  split at h
  · cases h
  · next e he => exact ⟨e, he, memRead_error h⟩

theorem writeAddr_ok {s : State} {k n : Nat} {o : Operand} (h : writeAddr s k o = .ok n) :
    n < s.cfg.memDepth ∧ effectiveAddr s o = some (n : Int) := by
  unfold writeAddr at h
  split at h
  · cases h
  · next e he => obtain ⟨h0, h1, rfl⟩ := checkAddr_ok h; exact ⟨by omega, by rw [he]; congr 1; omega⟩

theorem writeAddr_error {s : State} {k : Nat} {o : Operand} {f : Fault} (h : writeAddr s k o = .error f) :
    (o.mode = .immediate ∧ f = .invalidWriteTarget k) ∨ ∃ e, effectiveAddr s o = some e ∧
      ((e < 0 ∧ f = .negativeAddress e) ∨ ((s.cfg.memDepth : Int) ≤ e ∧ f = .addressOverflow e)) := by
  unfold writeAddr at h
  split at h
  · next he =>
    cases h
    refine .inl ⟨?_, rfl⟩
    unfold effectiveAddr at he
    split at he
    · cases he
    · next hm => exact hm
    · cases he
  · next e he => exact .inr ⟨e, he, checkAddr_error h⟩

/-- Effective addresses lie in the range of a 65-bit signed sum (R97). -/
theorem effectiveAddr_range {s : State} {o : Operand} {e : Int} (h : effectiveAddr s o = some e) :
    -2 ^ 64 ≤ e ∧ e ≤ 2 ^ 64 - 2 := by
  have hw : -2 ^ 63 ≤ o.word.toInt ∧ o.word.toInt < 2 ^ 63 :=
    ⟨BitVec.le_toInt o.word, BitVec.toInt_lt⟩
  have hb : -2 ^ 63 ≤ s.rb.toInt ∧ s.rb.toInt < 2 ^ 63 := ⟨BitVec.le_toInt s.rb, BitVec.toInt_lt⟩
  unfold effectiveAddr at h
  split at h <;> cases h <;> omega

/-! ## The shared bodies of the meanings -/

theorem storeBinary_ok {f : Word → Word → Word} {a b d : Operand} {s t : State}
    (h : storeBinary f a b d s = .ok t) :
    ∃ v1 v2 d3, readOperand s a = .ok v1 ∧ readOperand s b = .ok v2 ∧ writeAddr s 3 d = .ok d3 ∧
      t = (s.store d3 (f v1 v2)).advance 4 := by
  obtain ⟨v1, h1, h⟩ := bind_ok h
  obtain ⟨v2, h2, h⟩ := bind_ok h
  obtain ⟨d3, h3, h⟩ := bind_ok h
  cases h
  exact ⟨v1, v2, d3, h1, h2, h3, rfl⟩

theorem storeBinary_error {f : Word → Word → Word} {a b d : Operand} {s : State} {e : Fault}
    (h : storeBinary f a b d s = .error e) :
    readOperand s a = .error e ∨ readOperand s b = .error e ∨ writeAddr s 3 d = .error e := by
  rcases bind_error h with h | ⟨v1, -, h⟩
  · exact .inl h
  rcases bind_error h with h | ⟨v2, -, h⟩
  · exact .inr (.inl h)
  rcases bind_error h with h | ⟨d3, -, h⟩
  · exact .inr (.inr h)
  · cases h

theorem jumpIf_ok {taken : Word → Bool} {a b : Operand} {s t : State} (h : jumpIf taken a b s = .ok t) :
    ∃ v1 v2, readOperand s a = .ok v1 ∧ readOperand s b = .ok v2 ∧
      ((taken v1 = true ∧ 0 ≤ v2.toInt ∧ t = s.setIp v2.toInt.toNat) ∨ (taken v1 = false ∧ t = s.advance 3)) := by
  obtain ⟨v1, h1, h⟩ := bind_ok h
  obtain ⟨v2, h2, h⟩ := bind_ok h
  refine ⟨v1, v2, h1, h2, ?_⟩
  split at h
  · next ht =>
    split at h
    · cases h
    · cases h; exact .inl ⟨ht, by omega, rfl⟩
  · next ht => cases h; exact .inr ⟨by simpa using ht, rfl⟩

theorem jumpIf_error {taken : Word → Bool} {a b : Operand} {s : State} {e : Fault}
    (h : jumpIf taken a b s = .error e) :
    readOperand s a = .error e ∨ readOperand s b = .error e ∨
      ∃ v2 : Word, readOperand s b = .ok v2 ∧ v2.toInt < 0 ∧ e = .negativeAddress v2.toInt := by
  rcases bind_error h with h | ⟨v1, -, h⟩
  · exact .inl h
  rcases bind_error h with h | ⟨v2, h2, h⟩
  · exact .inr (.inl h)
  split at h
  · split at h
    · next hn => cases h; exact .inr (.inr ⟨v2, h2, hn, rfl⟩)
    · cases h
  · cases h

theorem takeInput_cases (s : State) (d : Nat) :
    (s.inq = [] ∧ takeInput s d = s.endRun .needsInput) ∨
    ∃ v rest, s.inq = v :: rest ∧ takeInput s d = ((s.store d v).setInq rest).advance 2 := by
  unfold takeInput
  split
  · next h => exact .inl ⟨h, rfl⟩
  · next v rest h => exact .inr ⟨v, rest, h, rfl⟩

end Sys2Proof.Machine
end

