-- ==== Sys2Proof/Laws/PerInstr.lean ====
section
/-! SUPPORT. Laws of every instruction as syntax, one lemma per constructor (LAWS.json). -/

namespace Sys2Proof.Laws

/-- A mode's digit is 0, 1 or 2. -/
theorem mode_code_le (m : Mode) : m.code ≤ 2 := by cases m <;> decide

namespace EncodeLength

/-- The encoding of an instruction has the width its opcode gives it (30_encoding.md R64). -/
def Statement (i : Instr) : Prop := (encode i).length = i.op.width

theorem add (a b d : Operand) : Statement (.add a b d) := rfl
theorem mul (a b d : Operand) : Statement (.mul a b d) := rfl
theorem inp (d : Operand) : Statement (.inp d) := rfl
theorem out (a : Operand) : Statement (.out a) := rfl
theorem jnz (a b : Operand) : Statement (.jnz a b) := rfl
theorem jz (a b : Operand) : Statement (.jz a b) := rfl
theorem lt (a b d : Operand) : Statement (.lt a b d) := rfl
theorem eq (a b d : Operand) : Statement (.eq a b d) := rfl
theorem arb (a : Operand) : Statement (.arb a) := rfl
theorem hlt : Statement .hlt := rfl

end EncodeLength

namespace HeadValueRange

/-- The canonical instruction word is a number of at most five digits, above 0 (30_encoding.md R71, R81). -/
def Statement (i : Instr) : Prop := 1 ≤ i.headValue ∧ i.headValue ≤ 22299

theorem add (a b d : Operand) : Statement (.add a b d) := by
  have ha := mode_code_le a.mode
  have hb := mode_code_le b.mode
  have hd := mode_code_le d.mode
  simp only [Statement, Instr.headValue, Instr.op, Opcode.code, Instr.operands, modesValue]
  omega

theorem mul (a b d : Operand) : Statement (.mul a b d) := by
  have ha := mode_code_le a.mode
  have hb := mode_code_le b.mode
  have hd := mode_code_le d.mode
  simp only [Statement, Instr.headValue, Instr.op, Opcode.code, Instr.operands, modesValue]
  omega

theorem inp (d : Operand) : Statement (.inp d) := by
  have hd := mode_code_le d.mode
  simp only [Statement, Instr.headValue, Instr.op, Opcode.code, Instr.operands, modesValue]
  omega

theorem out (a : Operand) : Statement (.out a) := by
  have ha := mode_code_le a.mode
  simp only [Statement, Instr.headValue, Instr.op, Opcode.code, Instr.operands, modesValue]
  omega

theorem jnz (a b : Operand) : Statement (.jnz a b) := by
  have ha := mode_code_le a.mode
  have hb := mode_code_le b.mode
  simp only [Statement, Instr.headValue, Instr.op, Opcode.code, Instr.operands, modesValue]
  omega

theorem jz (a b : Operand) : Statement (.jz a b) := by
  have ha := mode_code_le a.mode
  have hb := mode_code_le b.mode
  simp only [Statement, Instr.headValue, Instr.op, Opcode.code, Instr.operands, modesValue]
  omega

theorem lt (a b d : Operand) : Statement (.lt a b d) := by
  have ha := mode_code_le a.mode
  have hb := mode_code_le b.mode
  have hd := mode_code_le d.mode
  simp only [Statement, Instr.headValue, Instr.op, Opcode.code, Instr.operands, modesValue]
  omega

theorem eq (a b d : Operand) : Statement (.eq a b d) := by
  have ha := mode_code_le a.mode
  have hb := mode_code_le b.mode
  have hd := mode_code_le d.mode
  simp only [Statement, Instr.headValue, Instr.op, Opcode.code, Instr.operands, modesValue]
  omega

theorem arb (a : Operand) : Statement (.arb a) := by
  have ha := mode_code_le a.mode
  simp only [Statement, Instr.headValue, Instr.op, Opcode.code, Instr.operands, modesValue]
  omega

theorem hlt : Statement .hlt := by
  simp only [Statement, Instr.headValue, Instr.op, Opcode.code, Instr.operands, modesValue]
  omega

end HeadValueRange

end Sys2Proof.Laws
end

