-- ==== Sys2Proof/Laws/Step.lean ====
section
/-! SUPPORT. What a meaning, a fetch and a step of the machine can do, said once. -/

namespace Sys2Proof.Machine

/-- Everything a step that completes commits, by kind of instruction; `s` is the state it began with. -/
inductive Commits (s : State) : Instr → State → Prop where
  /-- ADD, MUL, LT, EQ: one cell and `ip`. -/
  | store {i : Instr} {a b d : Operand} {v : Word} {d3 : Nat} (hi : i.dest = some (3, d)) (hop : i.op ≠ .inp)
      (ha : writeAddr s 3 d = .ok d3) (hb : i.operands = [a, b, d]) :
      Commits s i ((s.store d3 v).advance 4)
  /-- IN with a word to take: one cell, the queue's head and `ip`. -/
  | input {d : Operand} {v : Word} {rest : List Word} {d1 : Nat} (hd : writeAddr s 1 d = .ok d1)
      (hq : s.inq = v :: rest) : Commits s (.inp d) (((s.store d1 v).setInq rest).advance 2)
  /-- IN on an empty queue: the run transaction ends. -/
  | needsInput {d : Operand} {d1 : Nat} (hd : writeAddr s 1 d = .ok d1) (hq : s.inq = []) :
      Commits s (.inp d) (s.endRun .needsInput)
  /-- OUT: `ip`, and the run transaction ends. -/
  | output {a : Operand} {v : Word} (ha : readOperand s a = .ok v) :
      Commits s (.out a) ((s.advance 2).endRun (.output v))
  /-- A jump taken. -/
  | jump {i : Instr} {a b : Operand} {v : Word} (hi : i = .jnz a b ∨ i = .jz a b)
      (hb : readOperand s b = .ok v) (hv : 0 ≤ v.toInt) : Commits s i (s.setIp v.toInt.toNat)
  /-- A jump not taken. -/
  | noJump {i : Instr} {a b : Operand} (hi : i = .jnz a b ∨ i = .jz a b) : Commits s i (s.advance 3)
  /-- ARB: `rb` and `ip`. -/
  | relBase {a : Operand} {v : Word} (ha : readOperand s a = .ok v) :
      Commits s (.arb a) ((s.setRb (aluAdd s.rb v)).advance 2)
  /-- HLT: the run state, and the run transaction ends. -/
  | halt : Commits s .hlt ((s.setRunState .halted).endRun .halted)

/-- Why the meaning of a well-formed instruction takes a fault. -/
def OperandFault (s : State) (i : Instr) (f : Fault) : Prop :=
  (∃ o ∈ i.operands, readOperand s o = .error f) ∨ (∃ k d, i.dest = some (k, d) ∧ writeAddr s k d = .error f) ∨
    ∃ v : Word, v.toInt < 0 ∧ f = .negativeAddress v.toInt

theorem storeBinary_exec_cases {s t : State} {i : Instr} {a b d : Operand} {g : Word → Word → Word}
    (hi : i.dest = some (3, d)) (hop : i.op ≠ .inp) (ho : i.operands = [a, b, d])
    (h : s.commit (storeBinary g a b d s) = .next t) :
    Commits s i t ∨ ∃ f, OperandFault s i f ∧ t = s.faultWith f := by
  rcases State.commit_cases h with e | ⟨f, e, rfl⟩
  · obtain ⟨v1, v2, d3, -, -, h3, rfl⟩ := storeBinary_ok e
    exact .inl (.store hi hop h3 ho)
  · refine .inr ⟨f, ?_, rfl⟩
    rcases storeBinary_error e with e | e | e
    · exact .inl ⟨a, by simp [ho], e⟩
    · exact .inl ⟨b, by simp [ho], e⟩
    · exact .inr (.inl ⟨3, d, hi, e⟩)

theorem jumpIf_exec_cases {s t : State} {i : Instr} {a b : Operand} {g : Word → Bool}
    (hi : i = .jnz a b ∨ i = .jz a b) (ho : i.operands = [a, b])
    (h : s.commit (jumpIf g a b s) = .next t) :
    Commits s i t ∨ ∃ f, OperandFault s i f ∧ t = s.faultWith f := by
  rcases State.commit_cases h with e | ⟨f, e, rfl⟩
  · obtain ⟨v1, v2, -, h2, ⟨-, hv, rfl⟩ | ⟨-, rfl⟩⟩ := jumpIf_ok e
    · exact .inl (.jump hi h2 hv)
    · exact .inl (.noJump hi)
  · refine .inr ⟨f, ?_, rfl⟩
    rcases jumpIf_error e with e | e | ⟨v, -, hv, rfl⟩
    · exact .inl ⟨a, by simp [ho], e⟩
    · exact .inl ⟨b, by simp [ho], e⟩
    · exact .inr (.inr ⟨v, hv, rfl⟩)

/-- Every instruction commits its own effect or takes one fault of its operands. -/
theorem exec_cases {i : Instr} {s t : State} (h : exec i s = .next t) :
    Commits s i t ∨ ∃ f, OperandFault s i f ∧ t = s.faultWith f := by
  cases i with
  | add a b d => exact storeBinary_exec_cases rfl (by simp [Instr.op]) rfl h
  | mul a b d => exact storeBinary_exec_cases rfl (by simp [Instr.op]) rfl h
  | lt a b d => exact storeBinary_exec_cases rfl (by simp [Instr.op]) rfl h
  | eq a b d => exact storeBinary_exec_cases rfl (by simp [Instr.op]) rfl h
  | jnz a b => exact jumpIf_exec_cases (.inl rfl) rfl h
  | jz a b => exact jumpIf_exec_cases (.inr rfl) rfl h
  | inp d =>
    rcases State.commit_cases h with e | ⟨f, e, rfl⟩
    · obtain ⟨d1, hd, e⟩ := bind_ok e
      cases e
      rcases takeInput_cases s d1 with ⟨hq, e⟩ | ⟨v, rest, hq, e⟩
      · rw [e]; exact .inl (.needsInput hd hq)
      · rw [e]; exact .inl (.input hd hq)
    · rcases bind_error e with e | ⟨d1, -, e⟩
      · exact .inr ⟨f, .inr (.inl ⟨1, d, rfl, e⟩), rfl⟩
      · cases e
  | out a =>
    rcases State.commit_cases h with e | ⟨f, e, rfl⟩
    · obtain ⟨v, hv, e⟩ := bind_ok e
      cases e
      exact .inl (.output hv)
    · rcases bind_error e with e | ⟨v, -, e⟩
      · exact .inr ⟨f, .inl ⟨a, by simp [Instr.operands], e⟩, rfl⟩
      · cases e
  | arb a =>
    rcases State.commit_cases h with e | ⟨f, e, rfl⟩
    · obtain ⟨v, hv, e⟩ := bind_ok e
      cases e
      exact .inl (.relBase hv)
    · rcases bind_error e with e | ⟨v, -, e⟩
      · exact .inr ⟨f, .inl ⟨a, by simp [Instr.operands], e⟩, rfl⟩
      · cases e
  | hlt => cases h; exact .inl .halt

/-- A meaning always answers a next state: it never stops the machine. -/
theorem exec_next (i : Instr) (s : State) : ∃ t, exec i s = .next t := by
  have hc : ∀ r : Except Fault State, ∃ t, s.commit r = .next t := fun r => by cases r <;> exact ⟨_, rfl⟩
  cases i <;> first | exact hc _ | exact ⟨_, rfl⟩

/-! ## Fetch -/

theorem decodePhase_ok {w : Word} {h : Head} (e : decodePhase w = .ok h) : decodeHead w = .ok h := by
  unfold decodePhase at e
  split at e
  · next h' hh => cases e; exact hh
  · cases e

theorem decodePhase_error {w : Word} {f : Fault} (e : decodePhase w = .error f) :
    ∃ g, decodeHead w = .error g ∧ f = decodeCause g := by
  unfold decodePhase at e
  split at e
  · cases e
  · next g hg => cases e; exact ⟨g, hg, rfl⟩

theorem fetchWords_ok {s : State} {n : Nat} : ∀ {a : Nat} {ws : List Word}, fetchWords s a n = .ok ws →
    ws.length = n ∧ (n = 0 ∨ a + n ≤ s.cfg.memDepth) ∧ ∀ k, k < n → ws.getD k 0 = s.mem.read (a + k) := by
  induction n with
  | zero => intro a ws h; cases h; exact ⟨rfl, .inl rfl, fun k hk => absurd hk (by omega)⟩
  | succ n ih =>
    intro a ws h
    obtain ⟨w, hw, h⟩ := bind_ok h
    obtain ⟨vs, hvs, h⟩ := bind_ok h
    cases h
    obtain ⟨h0, h1, rfl⟩ := memRead_ok hw
    obtain ⟨hl, hd, hr⟩ := ih hvs
    refine ⟨by simp [hl], .inr (by omega), fun k hk => ?_⟩
    cases k with
    | zero => simp
    | succ k =>
      have := hr k (by omega)
      rw [List.getD_cons_succ, this]
      congr 1
      omega

theorem fetchWords_error {s : State} {n : Nat} : ∀ {a : Nat} {f : Fault}, fetchWords s a n = .error f →
    ∃ k, k < n ∧ (∀ j, j < k → a + j < s.cfg.memDepth) ∧ s.cfg.memDepth ≤ a + k ∧
      f = .addressOverflow ((a + k : Nat) : Int) := by
  induction n with
  | zero => intro a f h; cases h
  | succ n ih =>
    intro a f h
    rcases bind_error h with h | ⟨w, hw, h⟩
    · rcases memRead_error h with ⟨hn, -⟩ | ⟨hd, rfl⟩
      · omega
      · exact ⟨0, by omega, fun j hj => absurd hj (by omega), by omega, rfl⟩
    · rcases bind_error h with h | ⟨vs, -, h⟩
      · obtain ⟨h0, h1, -⟩ := memRead_ok hw
        obtain ⟨k, hk, hj, hd, rfl⟩ := ih h
        refine ⟨k + 1, by omega, fun j hjk => ?_, by omega, by congr 1; omega⟩
        cases j with
        | zero => omega
        | succ j => have := hj j (by omega); omega
      · cases h

theorem fetchWords_inside {s : State} (n : Nat) : ∀ (a : Nat), (n = 0 ∨ a + n ≤ s.cfg.memDepth) →
    ∃ ws, fetchWords s a n = .ok ws := by
  induction n with
  | zero => intro a _; exact ⟨[], rfl⟩
  | succ n ih =>
    intro a h
    obtain ⟨ws, hws⟩ := ih (a + 1) (by omega)
    exact ⟨s.mem.read a :: ws, by rw [fetchWords, memRead_cell (by omega), hws]; rfl⟩

/-- The first operand word outside memory is the one that faults (R93). -/
theorem fetchWords_first_above {s : State} (n : Nat) : ∀ (a k : Nat), k < n →
    (∀ j, j < k → a + j < s.cfg.memDepth) → s.cfg.memDepth ≤ a + k →
    fetchWords s a n = .error (.addressOverflow ((a + k : Nat) : Int)) := by
  induction n with
  | zero => intro a k hk; omega
  | succ n ih =>
    intro a k hk hj hd
    cases k with
    | zero => rw [fetchWords, memRead_above (by omega)]; rfl
    | succ k =>
      have h0 := hj 0 (by omega)
      have e : a + 1 + k = a + (k + 1) := by omega
      rw [fetchWords, memRead_cell (by omega), ok_bind,
        ih (a + 1) k (by omega) (fun j hjk => by have := hj (j + 1) (by omega); omega) (by omega), e]
      rfl

/-- What a fetch that succeeds read: an instruction word in memory and the operand words behind it. -/
theorem fetchInstr_ok {s : State} {i : Instr} (h : fetchInstr s = .ok i) :
    s.ip < s.cfg.memDepth ∧ ∃ hd ps, decodeHead (s.mem.read s.ip) = .ok hd ∧
      fetchWords s (s.ip + 1) hd.op.operandCount = .ok ps ∧ i = hd.instr ps := by
  obtain ⟨w, hw, h⟩ := bind_ok h
  obtain ⟨hd, hh, h⟩ := bind_ok h
  obtain ⟨ps, hp, h⟩ := bind_ok h
  cases h
  obtain ⟨-, h1, rfl⟩ := memRead_ok hw
  exact ⟨by omega, hd, ps, decodePhase_ok hh, hp, rfl⟩

/-- Why a fetch fails (R91, phases F, D and O). -/
theorem fetchInstr_error {s : State} {f : Fault} (h : fetchInstr s = .error f) :
    (s.cfg.memDepth ≤ s.ip ∧ f = .addressOverflow (s.ip : Int)) ∨
    (∃ g, decodeHead (s.mem.read s.ip) = .error g ∧ f = decodeCause g) ∨
    ∃ hd k, decodeHead (s.mem.read s.ip) = .ok hd ∧ k < hd.op.operandCount ∧ s.ip < s.cfg.memDepth ∧
      s.cfg.memDepth ≤ s.ip + 1 + k ∧ f = .addressOverflow ((s.ip + 1 + k : Nat) : Int) := by
  rcases bind_error h with h | ⟨w, hw, h⟩
  · rcases memRead_error h with ⟨hn, -⟩ | ⟨hd, rfl⟩
    · omega
    · exact .inl ⟨by omega, rfl⟩
  obtain ⟨-, h1, rfl⟩ := memRead_ok hw
  rcases bind_error h with h | ⟨hd, hh, h⟩
  · exact .inr (.inl (decodePhase_error h))
  rcases bind_error h with h | ⟨ps, -, h⟩
  · obtain ⟨k, hk, -, hov, rfl⟩ := fetchWords_error h
    exact .inr (.inr ⟨hd, k, decodePhase_ok hh, hk, by omega, hov, rfl⟩)
  · cases h

/-- The fetch looks at the parameters, `ip` and the memory only. -/
theorem fetchInstr_congr {s s' : State} (hc : s.cfg = s'.cfg) (hi : s.ip = s'.ip) (hm : s.mem = s'.mem) :
    fetchInstr s = fetchInstr s' := by
  have hr : ∀ a, memRead s a = memRead s' a := fun a => by simp only [memRead, checkAddr, hc, hm]
  have hw : ∀ n a, fetchWords s a n = fetchWords s' a n := by
    intro n
    induction n with
    | zero => intro a; rfl
    | succ n ih => intro a; simp only [fetchWords, hr, ih]
  simp only [fetchInstr, hr, hi, hw]

/-! ## The step -/

/-- A move inside a run transaction in which no reset takes effect is one iteration of the run loop. -/
theorem step_loops {s : State} {rs : List HostAction} (h : s.LoopsWith rs) :
    step s = (s.setRequests rs).runOnce := by
  obtain ⟨hb, ⟨hu, rfl⟩ | ⟨n, image, rest, hq, rfl⟩⟩ := h
  · have e : s.busyStep = s.runOnce := by
      unfold State.busyStep
      split
      · next image rest hq => simp [State.uncut, hq, HostAction.cuts] at hu
      · next n image rest hq => simp [State.uncut, hq, HostAction.cuts] at hu
      · rfl
    rw [step, hb, if_pos rfl, e]
    rfl
  · rw [step, hb, if_pos rfl, State.busyStep, hq]

theorem State.Executing.loops {s : State} (h : s.Executing) : s.LoopsWith s.requests := ⟨h.1, .inl ⟨h.2.2, rfl⟩⟩

/-- A step that executes an instruction is the fetch and the instruction's meaning, and nothing else. -/
theorem step_executing {s : State} (h : s.Executing) : step s = s.runInstr := by
  have e := step_loops h.loops
  rw [State.runOnce, State.setRequests_runState, h.2.1] at e
  exact e

/-! ## The run loop does not look at what the host will ask -/

theorem commit_setRequests {s : State} (rs : List HostAction) {r r' : Except Fault State}
    (h : r' = r.map (·.setRequests rs)) :
    ∃ u, s.commit r = .next u ∧ (s.setRequests rs).commit r' = .next (u.setRequests rs) := by
  subst h
  cases r <;> exact ⟨_, rfl, rfl⟩

@[simp] theorem readOperand_setRequests (s : State) (rs : List HostAction) (o : Operand) :
    readOperand (s.setRequests rs) o = readOperand s o := rfl

@[simp] theorem writeAddr_setRequests (s : State) (rs : List HostAction) (k : Nat) (o : Operand) :
    writeAddr (s.setRequests rs) k o = writeAddr s k o := rfl

theorem storeBinary_setRequests (f : Word → Word → Word) (a b d : Operand) (s : State) (rs : List HostAction) :
    storeBinary f a b d (s.setRequests rs) = (storeBinary f a b d s).map (·.setRequests rs) := by
  simp only [storeBinary, readOperand_setRequests, writeAddr_setRequests]
  cases readOperand s a with
  | error g => rfl
  | ok v1 =>
    cases readOperand s b with
    | error g => rfl
    | ok v2 => cases writeAddr s 3 d <;> rfl

theorem jumpIf_setRequests (g : Word → Bool) (a b : Operand) (s : State) (rs : List HostAction) :
    jumpIf g a b (s.setRequests rs) = (jumpIf g a b s).map (·.setRequests rs) := by
  simp only [jumpIf, readOperand_setRequests]
  cases readOperand s a with
  | error f => rfl
  | ok v1 =>
    cases readOperand s b with
    | error f => rfl
    | ok v2 =>
      simp only [ok_bind]
      split
      · split <;> rfl
      · rfl

theorem takeInput_setRequests (s : State) (rs : List HostAction) (d : Nat) :
    takeInput (s.setRequests rs) d = (takeInput s d).setRequests rs := by
  unfold takeInput
  rw [State.setRequests_inq]
  cases s.inq <;> rfl

/-- An instruction does the same whatever the host will ask. -/
theorem exec_setRequests (i : Instr) (s : State) (rs : List HostAction) :
    ∃ u, exec i s = .next u ∧ exec i (s.setRequests rs) = .next (u.setRequests rs) := by
  cases i with
  | add a b d => exact commit_setRequests rs (storeBinary_setRequests ..)
  | mul a b d => exact commit_setRequests rs (storeBinary_setRequests ..)
  | lt a b d => exact commit_setRequests rs (storeBinary_setRequests ..)
  | eq a b d => exact commit_setRequests rs (storeBinary_setRequests ..)
  | jnz a b => exact commit_setRequests rs (jumpIf_setRequests ..)
  | jz a b => exact commit_setRequests rs (jumpIf_setRequests ..)
  | inp d =>
    refine commit_setRequests rs ?_
    rw [writeAddr_setRequests]
    cases writeAddr s 1 d with
    | error f => rfl
    | ok n => simp only [ok_bind, takeInput_setRequests]; rfl
  | out a =>
    refine commit_setRequests rs ?_
    rw [readOperand_setRequests]
    cases readOperand s a <;> rfl
  | arb a =>
    refine commit_setRequests rs ?_
    rw [readOperand_setRequests]
    cases readOperand s a <;> rfl
  | hlt => exact ⟨_, rfl, rfl⟩

/-- One iteration of the run loop does the same whatever the host will ask. -/
theorem runOnce_setRequests (s : State) (rs : List HostAction) :
    ∃ u, s.runOnce = .next u ∧ (s.setRequests rs).runOnce = .next (u.setRequests rs) := by
  unfold State.runOnce
  rw [State.setRequests_runState]
  cases s.runState with
  | halted => exact ⟨_, rfl, rfl⟩
  | faulted f => exact ⟨_, rfl, rfl⟩
  | running =>
    simp only [State.runInstr, fetchInstr_congr (s := s.setRequests rs) (s' := s) rfl rfl rfl]
    cases fetchInstr s with
    | error f => exact ⟨_, rfl, rfl⟩
    | ok i => exact exec_setRequests i s rs

/-- Everything a step of the machine can do. -/
inductive Moves (s : State) : State → Prop where
  /-- Nothing is asked for: the core is idle. -/
  | idle (hb : s.busy = false) (hr : s.requests = []) : Moves s s
  /-- The host acts. -/
  | host {act : HostAction} {rest : List HostAction} (hb : s.busy = false) (hr : s.requests = act :: rest) :
      Moves s ((s.setRequests rest).hostAct act)
  /-- A reset cuts the run short. -/
  | cut {image : List Int} {rest : List HostAction} (hb : s.busy = true)
      (hr : s.requests = .resetCutting 0 image :: rest) : Moves s ((s.setRequests rest).hostReset image)
  /-- One iteration of the run loop, on the same core, with a pending reset one step nearer. -/
  | loop {rs : List HostAction} {t : State} (hb : s.busy = true)
      (hr : rs = s.requests ∨ ∃ n image rest, s.requests = .resetCutting (n + 1) image :: rest ∧
        rs = .resetCutting n image :: rest)
      (ht : (s.setRequests rs).runOnce = .next t) : Moves s t

theorem State.setRequests_self (s : State) : s.setRequests s.requests = s := rfl

/-- What the run loop can do in one iteration (R171, R173, R174). -/
theorem runOnce_cases {s t : State} (h : s.runOnce = .next t) :
    (s.runState = .halted ∧ t = s.endRun .halted) ∨ (∃ f, s.runState = .faulted f ∧ t = s.endRun (.fault f)) ∨
    (s.runState = .running ∧ ((∃ f, fetchInstr s = .error f ∧ t = s.faultWith f) ∨
      ∃ i, fetchInstr s = .ok i ∧ exec i s = .next t)) := by
  unfold State.runOnce at h
  split at h
  · next hr =>
    refine .inr (.inr ⟨hr, ?_⟩)
    unfold State.runInstr at h
    split at h
    · next i hi => exact .inr ⟨i, hi, h⟩
    · next f hf => cases h; exact .inl ⟨f, hf, rfl⟩
  · next hr => cases h; exact .inl ⟨hr, rfl⟩
  · next f hr => cases h; exact .inr (.inl ⟨f, hr, rfl⟩)

theorem step_cases {s t : State} (h : step s = .next t) : Moves s t := by
  unfold step at h
  split at h
  · next hb =>
    unfold State.busyStep at h
    split at h
    · next image rest hr => cases h; exact .cut hb hr
    · next n image rest hr => exact .loop hb (.inr ⟨n, image, rest, hr, rfl⟩) h
    · exact .loop (rs := s.requests) hb (.inl rfl) h
  · next hb =>
    unfold State.idleStep at h
    split at h
    · next hr => cases h; exact .idle (by simpa using hb) hr
    · next act rest hr => cases h; exact .host (by simpa using hb) hr

/-- The three answers of a refused or an accepted `Reset(image)`. -/
theorem hostReset_cases (s : State) (image : List Int) :
    (∃ why, s.hostReset image = s.reply (.refused why)) ∨
    (image.all isWord = true ∧ image.length ≤ s.cfg.memDepth ∧
      s.hostReset image = (s.load image).reply .accepted) := by
  unfold State.hostReset
  split
  · exact .inl ⟨_, rfl⟩
  · next hw =>
    split
    · exact .inl ⟨_, rfl⟩
    · next hl => exact .inr ⟨by simpa using hw, by omega, rfl⟩

end Sys2Proof.Machine
end

