-- ==== Sys2Proof/Tests/Slice0.lean ====
section
/-! SUPPORT. The model's own tests: the smoke tests of WellFormed, decoding of words written out from 30_encoding.md,
one-step vectors of 95_test_vectors.md, and for each obligation with hypotheses a state that meets them. -/

namespace Sys2Proof.Tests

open Sys2Proof Sys2Proof.Machine

/-! ## Helpers -/

/-- Position, Immediate and Relative operands as R81 writes them: `[x]`, `#x`, `[rb+x]`. -/
def pos (x : Int) : Operand := { mode := .position, word := wrap64 x }
def imm (x : Int) : Operand := { mode := .immediate, word := wrap64 x }
def rel (x : Int) : Operand := { mode := .relative, word := wrap64 x }

/-- A state of a vector: the cells from address 0, a run transaction in progress. -/
def running (cells : List Int) : State :=
  { State.reset with mem := Memory.load 0 (cells.map wrap64), busy := true }

/-- The same between run transactions, with one thing asked for. -/
def asked (cells : List Int) (act : HostAction) : State :=
  { running cells with busy := false, requests := [act] }

/-- The state after a move, with a default that no test expects. -/
def after (o : Host.Outcome State Fault Refusal) : Option State :=
  match o with
  | .next t => some t
  | .fault _ => none
  | .refused _ => none

/-- The cell `a`, `ip` and the run state after a move. -/
def seen (o : Host.Outcome State Fault Refusal) (a : Nat) : Option (Int × Nat × RunState) :=
  (after o).map fun t => ((t.mem.read a).toInt, t.ip, t.runState)

/-- What the host was handed last, and whether the run transaction goes on. -/
def handed (o : Host.Outcome State Fault Refusal) : Option (Option HostReply × Bool) :=
  (after o).map fun t => (t.replies.getLast?, t.busy)

/-- `Holds` on a concrete state. -/
theorem holds_of_all {s : State} {a : Nat} {ws : List Word} (hd : a + ws.length ≤ s.cfg.memDepth)
    (hr : ∀ k : Fin ws.length, s.mem.read (a + k.val) = ws[k.val]) : s.Holds a ws :=
  ⟨hd, fun k h => hr ⟨k, h⟩⟩

/-! ## WellFormed: each check refuses an ill-formed term (R72) -/

theorem test_wellFormed_add : (Instr.add (pos 1) (pos 2) (imm 3)).wellFormed = false := by decide
theorem test_wellFormed_mul : (Instr.mul (pos 1) (pos 2) (imm 3)).wellFormed = false := by decide
theorem test_wellFormed_in : (Instr.inp (imm 3)).wellFormed = false := by decide
theorem test_wellFormed_lt : (Instr.lt (pos 1) (pos 2) (imm 3)).wellFormed = false := by decide
theorem test_wellFormed_eq : (Instr.eq (pos 1) (pos 2) (imm 3)).wellFormed = false := by decide
theorem test_wellFormed_read_operands :
    (Instr.add (imm 1) (imm 2) (rel 3)).wellFormed = true ∧ (Instr.out (imm 1)).wellFormed = true ∧
    (Instr.jnz (imm 1) (imm 2)).wellFormed = true ∧ (Instr.jz (imm 1) (imm 2)).wellFormed = true ∧
    (Instr.arb (imm 1)).wellFormed = true ∧ Instr.hlt.wellFormed = true := by decide

/-! ## Decode: words written out digit by digit from R66 and R83 -/

theorem test_decode_add : decode [22201, -2, -1, 2] = .ok (.add (rel (-2)) (rel (-1)) (rel 2), []) := by rfl
theorem test_decode_mul : decode [1002, 4, 3, 4, 33] = .ok (.mul (pos 4) (imm 3) (pos 4), [33]) := by rfl
theorem test_decode_in : decode [203, -3] = .ok (.inp (rel (-3)), []) := by rfl
theorem test_decode_out : decode [104, -5, 99] = .ok (.out (imm (-5)), [99]) := by rfl
theorem test_decode_jnz : decode [2105, 1, 0] = .ok (.jnz (imm 1) (rel 0), []) := by rfl
theorem test_decode_jz : decode [1006, 15, 14] = .ok (.jz (pos 15) (imm 14), []) := by rfl
theorem test_decode_lt : decode [21107, 3, 4, 5] = .ok (.lt (imm 3) (imm 4) (rel 5), []) := by rfl
theorem test_decode_eq : decode [108, 4, 5, 6] = .ok (.eq (imm 4) (pos 5) (pos 6), []) := by rfl
theorem test_decode_arb : decode [209, 2] = .ok (.arb (rel 2), []) := by rfl
theorem test_decode_hlt : decode [30099] = .ok (.hlt, []) := by rfl
theorem test_decode_short : decode [1, 0, 0] = .error (.missing 3) ∧ decode [] = .error (.missing 0) := by
  exact ⟨rfl, rfl⟩
theorem test_decode_faults :
    decodeHead 100 = .error (.unknownOpcode 0) ∧ decodeHead 398 = .error (.unknownOpcode 98) ∧
    decodeHead 13001 = .error (.invalidMode 2 3) ∧ decodeHead 9223372036854775807 = .error (.invalidMode 1 8) ∧
    decodeHead 103 = .error (.invalidWriteTarget 1) := by exact ⟨rfl, rfl, rfl, rfl, rfl⟩
/-- The record holds the digits of absent operands as well (R67, R71). -/
theorem test_decode_record : decodeHead 1104 = .ok ⟨.out, 1, 1, 0⟩ ∧ decodeHead 30099 = .ok ⟨.hlt, 0, 0, 3⟩ ∧
    decodeHead 3003 = .ok ⟨.inp, 0, 3, 0⟩ := by decide
theorem test_encode :
    encode (.add (rel (-2)) (imm 7) (pos 9)) = [1201, -2, 7, 9] ∧ encode .hlt = [99] := by decide

/-- The table's words: every row decodes and runs as the first instruction after reset. -/
theorem test_table_rows :
    decodeTableWord 8 1 = some (.add (pos 0) (pos 0) (pos 0)) ∧
    decodeTableWord 8 2 = some (.mul (pos 0) (pos 0) (pos 0)) ∧ decodeTableWord 8 3 = some (.inp (pos 0)) ∧
    decodeTableWord 8 4 = some (.out (pos 0)) ∧ decodeTableWord 8 5 = some (.jnz (pos 0) (pos 0)) ∧
    decodeTableWord 8 6 = some (.jz (pos 0) (pos 0)) ∧
    decodeTableWord 8 7 = some (.lt (pos 0) (pos 0) (pos 0)) ∧
    decodeTableWord 8 8 = some (.eq (pos 0) (pos 0) (pos 0)) ∧ decodeTableWord 8 9 = some (.arb (pos 0)) ∧
    decodeTableWord 8 99 = some .hlt ∧
    decodeTableWord 128 (1102 + 2 ^ 64 * 5) = some (.mul (imm 5) (imm 0) (pos 0)) := by decide
theorem test_withFetchWord_first_rows :
    seen (step (State.reset.withFetchWord 8 1)) 0 = some (2, 4, .running) ∧
    seen (step (State.reset.withFetchWord 8 2)) 0 = some (4, 4, .running) ∧
    handed (step (State.reset.withFetchWord 8 3)) = some (some (.outcome .needsInput), false) ∧
    handed (step (State.reset.withFetchWord 8 4)) = some (some (.outcome (.output 4)), false) ∧
    seen (step (State.reset.withFetchWord 8 5)) 0 = some (5, 5, .running) := by decide
theorem test_withFetchWord_last_rows :
    seen (step (State.reset.withFetchWord 8 6)) 0 = some (6, 3, .running) ∧
    seen (step (State.reset.withFetchWord 8 7)) 0 = some (0, 4, .running) ∧
    seen (step (State.reset.withFetchWord 8 8)) 0 = some (1, 4, .running) ∧
    (after (step (State.reset.withFetchWord 8 9))).map State.rb = some 9 ∧
    seen (step (State.reset.withFetchWord 8 99)) 0 = some (99, 0, .halted) := by decide

/-! ## One step of each instruction, from 95_test_vectors.md sections 3.1 to 3.8 -/

theorem test_add_relative : seen (step { running [21001, 5, 40, 2, 99, 30] with rb := 7 }) 9 =
    some (70, 4, .running) := by decide
theorem test_add_wraps : seen (step (running [1101, wordMax, 1, 5, 99, 0])) 5 = some (wordMin, 4, .running) := by
  decide
theorem test_mul_wraps : seen (step (running [1102, wordMin, -1, 5, 99, 0])) 5 = some (wordMin, 4, .running) := by
  decide
theorem test_mul_product : seen (step (running [1102, 34915192, 34915192, 7, 4, 7, 99, 0])) 7 =
    some (1219070632396864, 4, .running) := by decide
theorem test_in_takes_head : (after (step { running [3, 3, 99, 0] with inq := [7, 8] })).map
    (fun t => (t.mem.read 3, t.inq, t.ip)) = some (7, [8], 2) := by decide
theorem test_in_empty : handed (step (running [3, 3, 99, 0])) = some (some (.outcome .needsInput), false) := by
  decide
theorem test_out_own_word : handed (step (running [4, 0, 99])) = some (some (.outcome (.output 4)), false) := by
  decide
theorem test_out_address_overflow : seen (step { running [4, 2] with cfg.memDepth := 2 }) 0 =
    some (4, 0, .faulted (.addressOverflow 2)) := by decide
theorem test_jnz_relative : seen (step { running [2105, 1, 0, 99, 0, 0, 0, 42] with rb := 7 }) 0 =
    some (2105, 42, .running) := by decide
theorem test_jnz_resolves_both : seen (step (running [5, 3, -1, 0])) 0 =
    some (5, 0, .faulted (.negativeAddress (-1))) := by decide
theorem test_jz_taken : seen (step (running [6, 4, 5, 99, 0, 9])) 0 = some (6, 9, .running) := by decide
theorem test_jz_negative_target : seen (step (running [1106, 0, -1, 99])) 0 =
    some (1106, 0, .faulted (.negativeAddress (-1))) := by decide
theorem test_lt_signed : seen (step (running [1107, -1, 0, 5, 99, 9])) 5 = some (1, 4, .running) := by decide
theorem test_lt_equal : seen (step (running [1107, 4, 4, 5, 99, 9])) 5 = some (0, 4, .running) := by decide
theorem test_eq_equal : seen (step (running [1108, 4, 4, 5, 99, 9])) 5 = some (1, 4, .running) := by decide
theorem test_eq_unequal : seen (step (running [1108, 4, -4, 5, 99, 9])) 5 = some (0, 4, .running) := by decide
theorem test_arb_relative : (after (step { running [209, 2, 99, 0, 17] with rb := 2 })).map
    (fun t => (t.rb, t.ip)) = some (19, 2) := by decide
theorem test_arb_wraps : (after (step { running [109, 1, 99] with rb := wrap64 wordMax })).map
    (fun t => t.rb.toInt) = some wordMin := by decide
theorem test_hlt_last_cell : seen (step { running [0, 0, 0, 99] with cfg.memDepth := 4, ip := 3 }) 3 =
    some (99, 3, .halted) := by decide

/-! ## Fault priority and the exact sum (sections 3.1 and 3.9) -/

theorem test_exact_sum :
    seen (step { running [204, wordMin, 99] with rb := wrap64 wordMin }) 0 =
      some (204, 0, .faulted (.negativeAddress (-18446744073709551616))) ∧
    seen (step { running [204, wordMax, 99] with rb := wrap64 wordMax }) 0 =
      some (204, 0, .faulted (.addressOverflow 18446744073709551614)) := by decide
theorem test_priority_write_target : seen (step { running [10001, 0, 0] with cfg.memDepth := 3 }) 0 =
    some (10001, 0, .faulted (.invalidWriteTarget 3)) := by decide
theorem test_priority_operand_word : seen (step { running [0, 0, 1, -1] with cfg.memDepth := 4, ip := 2 }) 0 =
    some (0, 2, .faulted (.addressOverflow 4)) := by decide

/-! ## Memory keeps its canonical form on a write of 0 (R24, log 1) -/

theorem test_memory_zero_removes : Memory.write [(3, 5), (7, 6)] 3 0 = [(7, 6)] ∧
    Memory.write [(3, 5), (7, 6)] 5 1 = [(3, 5), (5, 1), (7, 6)] := by decide

/-! ## Host actions and ports (section 3.10) -/

theorem test_reset_too_long : handed (step { asked [] (.reset [1, 0, 0, 0, 99]) with cfg.memDepth := 4 }) =
    some (some (.refused .loadOverflow), false) := by decide
theorem test_run_empty_program : seen (step (running [])) 0 = some (0, 0, .faulted (.unknownOpcode 0)) := by decide
theorem test_push_full : (after (step { asked [3, 0, 99] (.push 2) with cfg.inqDepth := some 1, inq := [1] })).map
    (fun t => (t.inq, t.replies)) = some ([1], [.refused .queueFull]) := by decide
theorem test_ports : (RunOutcome.fault (.negativeAddress (-18446744073709551616))).stInfo.toInt =
    -18446744073709551616 ∧ (RunOutcome.fault (.invalidMode 3 9)).stInfo.toInt = 39 := by decide

/-! ## Witnesses: each obligation's hypotheses are met together -/

theorem witness_wrap64 : (2 ^ 64 : Int) ∣ (wrap64 (2 ^ 63)).toInt - 2 ^ 63 := by decide
theorem witness_division : (0 : Int) < 100 ∧ (0 : Int) ≤ 1002 ∧ (-199 : Int) < 0 := by decide
theorem witness_digit : (0 : Int) ≤ 1002 := by decide
theorem witness_wrapped_arithmetic :
    (wordMin ≤ wordMin ∧ wordMin ≤ wordMax) ∧ wordMin ≤ wordMax ∧ wordMax ≤ wordMax := by decide
theorem witness_encode : (Instr.lt (imm 3) (pos 4) (rel 5)).WellFormed := by decide
theorem witness_decoded : decode [1002, 4, 3, 4, 33] = .ok (.mul (pos 4) (imm 3) (pos 4), [33]) := by rfl
theorem witness_unused_digits : Opcode.inp.code = trem (203 : Word).toInt 100 ∧ 0 ≤ (21203 : Word).toInt ∧
    trem (21203 : Word).toInt (10 ^ (2 + Opcode.inp.operandCount)) =
      trem (203 : Word).toInt (10 ^ (2 + Opcode.inp.operandCount)) ∧
    Opcode.add.code = trem (1 : Word).toInt 100 ∧ 0 ≤ (100001 : Word).toInt ∧
    trem (100001 : Word).toInt (10 ^ 5) = trem (1 : Word).toInt (10 ^ 5) := by decide
theorem witness_unknown_opcode : 0 ≤ (98 : Word).toInt ∧ ¬ trem (98 : Word).toInt 100 ≤ 9 ∧
    trem (0 : Word).toInt 100 = 0 := by decide
theorem witness_negative_word : (wrap64 (-1)).toInt < 0 ∧ (wrap64 wordMin).toInt < 0 := by decide
/-- Digit 3 on the first operand and digit 9 on the last one. -/
theorem witness_invalid_mode :
    (Opcode.add.code = trem (13301 : Word).toInt 100 ∧ 3 ≤ digit (13301 : Word).toInt (1 + 1) ∧
      ∀ j : Nat, 1 ≤ j → j < 1 → digit (13301 : Word).toInt (j + 1) ≤ 2) ∧
    (Opcode.mul.code = trem (90002 : Word).toInt 100 ∧ 3 ≤ Opcode.mul.operandCount ∧
      3 ≤ digit (90002 : Word).toInt (3 + 1) ∧
      ∀ j : Nat, 1 ≤ j → j < 3 → digit (90002 : Word).toInt (j + 1) ≤ 2) := by
  refine ⟨⟨by decide, by decide, fun j h h' => by omega⟩, by decide, by decide, by decide, fun j h h' => ?_⟩
  obtain rfl | rfl : j = 1 ∨ j = 2 := by omega
  · decide
  · decide
/-- An Immediate destination, and a word all of whose reads are Immediate. -/
theorem witness_write_target :
    (Opcode.inp.code = trem (103 : Word).toInt 100 ∧
      (∀ k : Nat, 1 ≤ k → k ≤ Opcode.inp.operandCount → digit (103 : Word).toInt (k + 1) ≤ 2) ∧
      Opcode.inp.destIndex = some 1 ∧ digit (103 : Word).toInt (1 + 1) = 1) ∧
    (Opcode.jz.code = trem (1106 : Word).toInt 100 ∧
      (∀ k : Nat, 1 ≤ k → k ≤ Opcode.jz.operandCount → digit (1106 : Word).toInt (k + 1) ≤ 2) ∧
      ∀ d, Opcode.jz.destIndex = some d → digit (1106 : Word).toInt (d + 1) ≠ 1) := by
  refine ⟨⟨by decide, fun k h h' => ?_, by decide, by decide⟩, by decide, fun k h h' => ?_, fun d h => by cases h⟩
  · obtain rfl : k = 1 := Nat.le_antisymm h' h
    decide
  · have h' : k ≤ 2 := h'
    obtain rfl | rfl : k = 1 ∨ k = 2 := by omega
    · decide
    · decide
/-- The address check at both sides of both bounds (also the clauses of the memory statement). -/
theorem witness_address_check :
    (-1 : Int) < 0 ∧ (State.reset.cfg.memDepth : Int) ≤ 65536 ∧ (0 : Int) < State.reset.cfg.memDepth ∧
    (65535 : Int) < State.reset.cfg.memDepth := by decide
/-- Effective addresses at both sides of both bounds, for the two modes that address a cell. -/
theorem witness_operands :
    (readOperand (running []) (pos (-1)) = .error (.negativeAddress (-1)) ∧
      readOperand (running [7]) (pos 0) = .ok 7 ∧ readOperand (running []) (pos 65535) = .ok 0 ∧
      readOperand (running []) (pos 65536) = .error (.addressOverflow 65536)) ∧
    (writeAddr { running [] with rb := 5 } 3 (rel (-6)) = .error (.negativeAddress (-1)) ∧
      writeAddr { running [] with rb := 5 } 3 (rel (-5)) = .ok 0 ∧
      writeAddr { running [] with rb := 5 } 1 (rel 65530) = .ok 65535 ∧
      writeAddr { running [] with rb := 5 } 1 (rel 65531) = .error (.addressOverflow 65536)) := by
  exact ⟨⟨rfl, rfl, rfl, rfl⟩, rfl, rfl, rfl, rfl⟩
/-- For ADD, MUL, LT and EQ: every operand resolves, LT and EQ with both answers. -/
theorem witness_store_operands :
    readOperand { running [7] with rb := 9 } (pos 0) = .ok 7 ∧
    readOperand { running [7] with rb := 9 } (imm (-1)) = .ok (-1) ∧
    writeAddr { running [7] with rb := 9 } 3 (rel (-9)) = .ok 0 ∧
    ¬ (7 : Word).toInt < (-1 : Word).toInt ∧ (-1 : Word).toInt < (7 : Word).toInt := by
  exact ⟨rfl, rfl, rfl, by decide, by decide⟩
theorem witness_in : writeAddr { running [3] with inq := [7, 8] } 1 (pos 65535) = .ok 65535 ∧
    { running [3] with inq := [7, 8] }.inq = 7 :: [8] ∧ writeAddr (running [3]) 1 (pos 0) = .ok 0 ∧
    (running [3]).inq = [] := by exact ⟨rfl, rfl, rfl, rfl⟩
/-- For the jumps: both conditions, and the targets -1, 0 and MEM_DEPTH, on an executing core (OUT and ARB read the
same operands). -/
theorem witness_jump : (running [1105]).Executing ∧ readOperand (running [1105]) (imm 0) = .ok 0 ∧
    readOperand (running [1105]) (imm (-1)) = .ok (-1) ∧ readOperand (running [1105]) (imm 65536) = .ok 65536 ∧
    (-1 : Word) ≠ 0 ∧ (-1 : Word).toInt < 0 ∧ 0 ≤ (0 : Word).toInt ∧ (65536 : Word).toInt = 65536 := by
  exact ⟨⟨rfl, rfl, rfl⟩, rfl, rfl, rfl, by decide, by decide, by decide, by decide⟩
/-- For the first faulting operand: each place of the first fault. -/
theorem witness_first_fault :
    readOperand (running [1]) (pos (-2)) = .error (.negativeAddress (-2)) ∧
    (∃ v1, readOperand (running [1]) (pos 0) = .ok v1) ∧
    writeAddr (running [1]) 3 (pos (-2)) = .error (.negativeAddress (-2)) ∧
    writeAddr (running [1]) 1 (pos (-2)) = .error (.negativeAddress (-2)) := by
  exact ⟨rfl, ⟨_, rfl⟩, rfl, rfl⟩
/-- Two modes with one value and one cell. -/
theorem witness_equal_operands :
    readOperand { running [7] with rb := 9 } (pos 0) = readOperand { running [7] with rb := 9 } (imm 7) ∧
    writeAddr { running [7] with rb := 9 } 3 (pos 4) = writeAddr { running [7] with rb := 9 } 3 (rel (-5)) ∧
    writeAddr { running [7] with rb := 9 } 1 (pos 4) = writeAddr { running [7] with rb := 9 } 1 (rel (-5)) := by
  exact ⟨rfl, rfl, rfl⟩
theorem witness_exec_next : ∃ t, exec (.add (pos 0) (imm 1) (pos 5)) (running [7]) = .next t ∧
    (running [7]).storedCell (.add (pos 0) (imm 1) (pos 5)) = some 5 := ⟨_, rfl, rfl⟩
/-- A program in memory that decodes, on an executing core and before a reset that is one step away. -/
theorem witness_step_runs :
    (running [1101, 3, 4, 0, 99]).Holds (running [1101, 3, 4, 0, 99]).ip [1101, 3, 4, 0] ∧
    decode [1101, 3, 4, 0] = .ok (.add (imm 3) (imm 4) (pos 0), []) ∧ (running [1101, 3, 4, 0, 99]).Executing := by
  exact ⟨holds_of_all (by decide) (by decide), rfl, rfl, rfl, rfl⟩
theorem witness_step_runs_uncut_yet :
    { running [99] with requests := [.resetCutting 1 []] }.Holds 0 [99] ∧ decode [99] = .ok (.hlt, []) ∧
    { running [99] with requests := [.resetCutting 1 []] }.busy = true := by
  exact ⟨holds_of_all (by decide) (by decide), rfl, rfl⟩
/-- The three kinds of fetch fault at the last address of the memory. -/
theorem witness_fetch_faults :
    { running [1, 0, 0] with cfg.memDepth := 3, ip := 3 }.LoopsWith [] ∧
    { running [13301] with requests := [.resetCutting 1 []] }.LoopsWith [.resetCutting 0 []] ∧
    (running [1, 0, 0]).runState = .running ∧
    decodePhase 13301 = .error (.invalidMode 1 3) ∧
    decodePhase ({ running [1, 0, 0] with cfg.memDepth := 3 }.mem.read 0) =
      .ok ⟨.add, 0, 0, 0⟩ ∧ 0 + 3 = 3 := by
  exact ⟨⟨rfl, .inl ⟨rfl, rfl⟩⟩, ⟨rfl, .inr ⟨0, [], [], rfl, rfl⟩⟩, rfl, rfl, rfl, rfl⟩
theorem witness_precise : (running [3, -1, 99]).LoopsWith [] ∧ (running [3, -1, 99]).runState = .running ∧ ∃ t, step (running [3, -1, 99]) = .next t ∧
    t.runState = .faulted (.negativeAddress (-1)) := ⟨⟨rfl, .inl ⟨rfl, rfl⟩⟩, rfl, _, rfl, by decide⟩
theorem witness_stored_word : (running [0, 5]).Executing ∧ (running [0, 5]).ip < (running [0, 5]).cfg.memDepth ∧
    decodePhase 13301 = .error (.invalidMode 1 3) ∧ (running [0, 5]).Holds (0 + 1) [5] ∧
    decode [4, 5] = .ok (.out (pos 5), []) := by
  exact ⟨⟨rfl, rfl, rfl⟩, by decide, rfl, holds_of_all (by decide) (by decide), rfl⟩
theorem witness_invariant : (running [1, 0, 0, 0, 99]).Inv ∧ (running [1, 0, 0, 0, 99]).FaultLegal ∧
    ∃ t, step (running [1, 0, 0, 0, 99]) = .next t := by
  exact ⟨⟨by decide, by decide, by decide, by decide, fun n h => by cases h⟩,
    ⟨fun f h => (by cases h), ⟨_, rfl⟩⟩⟩
theorem witness_absorbing :
    { running [99] with runState := .halted }.runState ≠ .running ∧
    { running [99] with runState := .faulted (.unknownOpcode 0) }.runState ≠ .running ∧
    (∃ t, step { running [99] with runState := .halted } = .next t) := ⟨by decide, by decide, _, rfl⟩
theorem witness_safe_run :
    (∀ act ∈ { running [104, 7, 99] with requests := [.push 1] }.requests,
      (∀ image, act ≠ .reset image) ∧ ∀ n image, act ≠ .resetCutting n image) ∧
    ∃ t, Sys2Proof.core.run 2 { running [104, 7, 99] with requests := [.push 1] } = .next t ∧
      ∀ f, t.runState ≠ .faulted f := by
  refine ⟨fun act h => ?_, _, rfl, fun f h => by cases h⟩
  obtain rfl : act = .push 1 := List.mem_singleton.mp h
  exact ⟨fun _ h => (by cases h), fun _ _ h => (by cases h)⟩
theorem witness_same_core :
    (running [99]).SameCore { running [99] with requests := [.push 1] } ∧ (running [99]).Executing ∧
    { running [99] with requests := [.push 1] }.Executing ∧ (∃ t, step (running [99]) = .next t) ∧
    ∃ t, step { running [99] with requests := [.push 1] } = .next t := by
  exact ⟨⟨rfl, rfl, rfl, rfl, rfl, rfl⟩, ⟨rfl, rfl, rfl⟩, ⟨rfl, rfl, rfl⟩, ⟨_, rfl⟩, _, rfl⟩
/-- On a halted and on a faulted core, with no reset to come and with one that is still a move away. -/
theorem witness_after_end :
    { running [] with runState := .halted }.LoopsWith [] ∧
    { running [] with runState := .halted, requests := [.resetCutting 3 [], .run] }.LoopsWith
      [.resetCutting 2 [], .run] ∧
    { running [] with runState := .faulted (.unknownOpcode 0), requests := [.run] }.LoopsWith [.run] := by
  exact ⟨⟨rfl, .inl ⟨rfl, rfl⟩⟩, ⟨rfl, .inr ⟨2, [], [.run], rfl, rfl⟩⟩, rfl, .inl ⟨rfl, rfl⟩⟩
/-- A run transaction that ends, for each outcome. -/
theorem witness_transaction :
    (State.transaction 2 (running [1101, 3, 4, 4, 0, 0, 0, 0])).isSome = false ∧
    (State.transaction 3 (running [109, 7, 99])).map State.runState = some .halted ∧
    (State.transaction 1 (running [104, 7, 99])).map State.replies = some [.outcome (.output 7)] ∧
    (State.transaction 1 (running [3, 0])).map State.replies = some [.outcome .needsInput] ∧
    (State.transaction 1 (running [])).map State.replies = some [.outcome (.fault (.unknownOpcode 0))] := by decide
/-- OUT with another run asked for. -/
theorem witness_resume_out :
    { running [104, 7, 99] with requests := [.run, .run] }.Executing ∧
    { running [104, 7, 99] with requests := [.run, .run] }.Holds 0 [104, 7] ∧
    decode [104, 7] = .ok (.out (imm 7), []) ∧ readOperand (running [104, 7, 99]) (imm 7) = .ok 7 ∧
    ∃ t, step { running [104, 7, 99] with requests := [.run, .run] } = .next t ∧ t.busy = false ∧
      t.runState = .running := by
  exact ⟨⟨rfl, rfl, rfl⟩, holds_of_all (by decide) (by decide), rfl, rfl, _, rfl, rfl, rfl⟩
/-- IN on an empty queue of one place, with a push and another run asked for. -/
theorem witness_resume_in :
    { running [3, 5, 99] with cfg.inqDepth := some 1, requests := [.push 9, .run] }.Executing ∧
    { running [3, 5, 99] with cfg.inqDepth := some 1, requests := [.push 9, .run] }.Holds 0 [3, 5] ∧
    decode [3, 5] = .ok (.inp (pos 5), []) ∧ writeAddr (running [3, 5, 99]) 1 (pos 5) = .ok 5 ∧
    (running [3, 5, 99]).inq = [] ∧ 0 < 1 ∧ State.uncut { running [3, 5, 99] with inq := [9] } = true := by
  exact ⟨⟨rfl, rfl, rfl⟩, holds_of_all (by decide) (by decide), rfl, rfl, rfl, by decide, rfl⟩
theorem witness_host_run : (asked [99] .run).busy = false ∧ (asked [99] .run).requests = .run :: [] ∧
    State.reset.busy = false ∧ State.reset.requests = [] := by decide
/-- A queue with one place left, a full one, and an unbounded one. -/
theorem witness_push : (asked [] (.push 2)).requests = .push 2 :: [] ∧ (asked [] (.push 2)).busy = false ∧
    { asked [] (.push 2) with cfg.inqDepth := some 2, inq := [1] }.inq.length < 2 ∧
    1 ≤ { asked [] (.push 2) with cfg.inqDepth := some 1, inq := [1] }.inq.length := by decide
theorem witness_peek : (asked [] (.peek 65535)).requests = .peek 65535 :: [] ∧
    (65535 : Int) < (asked [] (.peek 65535)).cfg.memDepth ∧
    ((asked [] (.peek 65536)).cfg.memDepth : Int) ≤ 65536 ∧ (-1 : Int) < 0 := by decide
/-- An image that just fits, one entry beyond each end of the Word range, and an image one too long. -/
theorem witness_reset :
    (asked [] (.reset [wordMin, wordMax])).requests = .reset [wordMin, wordMax] :: [] ∧
    (asked [] (.resetCutting 7 [wordMin, wordMax])).requests = .resetCutting 7 [wordMin, wordMax] :: [] ∧
    (asked [] (.resetCutting 7 [wordMin, wordMax])).busy = false ∧
    (∀ z ∈ [wordMin, wordMax], wordMin ≤ z ∧ z ≤ wordMax) ∧
    [wordMin, wordMax].length ≤ { asked [] .run with cfg.memDepth := 2 }.cfg.memDepth ∧
    (∃ z ∈ [0, wordMin - 1], z < wordMin ∨ wordMax < z) ∧ (∃ z ∈ [wordMax + 1], z < wordMin ∨ wordMax < z) ∧
    { asked [] .run with cfg.memDepth := 1 }.cfg.memDepth < [wordMin, wordMax].length := by decide
theorem witness_cut : { running [1105, 1, 0] with requests := [.resetCutting 0 [99]] }.busy = true ∧
    (∀ z ∈ ([99] : List Int), wordMin ≤ z ∧ z ≤ wordMax) ∧
    { running [1105, 1, 0] with requests := [.resetCutting 0 [wordMax + 1]] }.busy = true ∧
    { running [1105, 1, 0] with requests := [.resetCutting 3 [99]] }.requests = .resetCutting (2 + 1) [99] :: [] ∧
    { running [1105, 1, 0] with requests := [.push 1] }.uncut = true := by decide
/-- A core that takes a push, an address at each side of the memory's end, and a run that ends. -/
theorem witness_ports : (asked [] (.push 2)).inReady = true ∧ 65535 < (asked [] .run).cfg.memDepth ∧
    (asked [] .run).cfg.memDepth ≤ 65536 ∧ (running [104, 7, 99]).LoopsWith [] ∧
    ∃ t, step (running [104, 7, 99]) = .next t ∧ t.busy = false := by
  exact ⟨rfl, by decide, by decide, ⟨rfl, .inl ⟨rfl, rfl⟩⟩, _, rfl, rfl⟩
theorem witness_fault_info :
    (Fault.negativeAddress (-2 ^ 64)).Legal 8 ∧ (Fault.unknownOpcode (-99)).Legal 8 ∧
    (Fault.invalidWriteTarget 1).Legal 8 ∧ (Fault.addressOverflow (2 ^ 64 - 2)).Legal 8 ∧
    (Fault.addressOverflow 8).Legal 8 ∧ (Fault.invalidMode 3 9).Legal 8 := by
  simp [Fault.Legal]

end Sys2Proof.Tests
end

-- The integer rules of 00_scope.md, settled: wrap64 (R9), truncating division (R10), decimal digits (R11).
section

namespace Sys2Proof

/-! ## wrap64 (R9) -/

theorem toInt_wrap64 (z : Int) :
    (wrap64 z).toInt = if z % 2 ^ 64 < 2 ^ 63 then z % 2 ^ 64 else z % 2 ^ 64 - 2 ^ 64 := by
  rw [wrap64, BitVec.toInt_ofInt, Int.bmod_def]
  norm_num

/-- `wrap64` identifies exactly the integers congruent modulo `2^64`. -/
theorem wrap64_eq_wrap64_iff (y z : Int) : wrap64 y = wrap64 z ↔ (2 ^ 64 : Int) ∣ y - z := by
  rw [← BitVec.toInt_inj, wrap64, wrap64, BitVec.toInt_ofInt, BitVec.toInt_ofInt,
    Int.bmod_eq_bmod_iff_bmod_sub_eq_zero, ← Int.dvd_iff_bmod_eq_zero]
  norm_cast

/-- A Word congruent to `z` is `wrap64 z`: both are the wrapped value of congruent integers. -/
theorem eq_wrap64_of_dvd {w : Word} {z : Int} (h : (2 ^ 64 : Int) ∣ w.toInt - z) : w = wrap64 z :=
  calc w = wrap64 w.toInt := (wrap64_toInt w).symm
    _ = wrap64 z := (wrap64_eq_wrap64_iff _ _).mpr h

/-- Settles O1: the value by its case split, uniqueness from the congruence, and a Word as its own wrapped value. -/
theorem wrap64IsTheCongruentWord : Obligations.Wrap64IsTheCongruentWord :=
  fun z => ⟨toInt_wrap64 z, fun _ h => eq_wrap64_of_dvd h, wrap64_toInt⟩

/-! ## Truncating division (R10) -/

theorem tdiv_of_nonneg {a : Int} (h : 0 ≤ a) (b : Int) : tdiv a b = a / b :=
  Int.tdiv_eq_ediv_of_nonneg h

theorem tdiv_neg_left (a b : Int) : tdiv (-a) b = -tdiv a b :=
  Int.neg_tdiv a b

theorem trem_neg_left (a b : Int) : trem (-a) b = -trem a b := by
  rw [trem_eq_tmod, trem_eq_tmod, Int.neg_tmod]

/-- The quotient of a negative dividend mirrors the floor quotient of its opposite. -/
theorem tdiv_of_neg {a : Int} (h : a < 0) (b : Int) : tdiv a b = -(-a / b) := by
  rw [← tdiv_of_nonneg (by omega : 0 ≤ -a), tdiv_neg_left, neg_neg]

/-- The remainder of a negative dividend mirrors the floor remainder of its opposite. -/
theorem trem_of_neg {a : Int} (h : a < 0) (b : Int) : trem a b = -(-a % b) := by
  rw [← trem_of_nonneg (by omega : 0 ≤ -a), trem_neg_left, neg_neg]

/-- Settles O2: floor values for a dividend that is not negative, their mirror images for a negative one, and the
examples by evaluation. -/
theorem divisionTruncatesTowardZero : Obligations.DivisionTruncatesTowardZero := by
  refine ⟨fun a b hb => ⟨rfl, fun ha => ?nonneg, fun ha => ?neg⟩, by decide⟩
  case nonneg =>
    have hlt := Int.emod_lt_of_pos a hb
    rw [tdiv_of_nonneg ha, trem_of_nonneg ha]
    exact ⟨rfl, rfl, Int.emod_nonneg a hb.ne', by omega⟩
  case neg =>
    have hrem := Int.emod_nonneg (-a) hb.ne'
    rw [tdiv_of_neg ha, trem_of_neg ha]
    exact ⟨rfl, rfl, by omega⟩

/-! ## Decimal digits (R11) -/

theorem digit_range_of_nonneg {z : Int} (h : 0 ≤ z) (k : Nat) : 0 ≤ digit z k ∧ digit z k ≤ 9 := by
  rw [digit_of_nonneg h]
  omega

/-- The digits from weight `10^k` upward are those above it, moved up one place, and the digit of weight `10^k`. -/
theorem ediv_pow_eq_add_digit {z : Int} (h : 0 ≤ z) (k : Nat) :
    z / 10 ^ k = 10 * (z / 10 ^ (k + 1)) + digit z k := by
  have hshift : z / 10 ^ (k + 1) = z / 10 ^ k / 10 := by
    rw [pow_succ, Int.ediv_ediv_of_nonneg (by positivity)]
  rw [digit_of_nonneg h, hshift, Int.mul_ediv_add_emod]

/-- Settles O3: the digit is the remainder by 10 of the number without its lower digits. -/
theorem digitHasItsDecimalWeight : Obligations.DigitHasItsDecimalWeight := fun _ k hz =>
  have ⟨hlow, hhigh⟩ := digit_range_of_nonneg hz k
  ⟨rfl, hlow, hhigh, ediv_pow_eq_add_digit hz k⟩

end Sys2Proof
end

-- The address check of 20_memory.md, settled on every integer (R41).
section

namespace Sys2Proof.Machine

/-! ## Address checks (R41) -/

theorem checkAddr_negative {s : State} {a : Int} (h : a < 0) : checkAddr s a = .error (.negativeAddress a) :=
  if_pos h

/-- Settles O13: `MEM_DEPTH` is not negative, so an address at or above it passes the sign test. -/
theorem addressCheckIsExact : Obligations.AddressCheckIsExact := by
  intro s a
  have hdepth : (0 : Int) ≤ s.cfg.memDepth := Int.natCast_nonneg _
  exact ⟨checkAddr_negative, fun habove => checkAddr_above (hdepth.trans habove) habove, checkAddr_inside,
    fun ⟨hneg, habove⟩ => (hdepth.trans habove).not_gt hneg⟩

end Sys2Proof.Machine
end

-- The decoder of one instruction word, settled fault by fault (30_encoding.md R68, R70, R72).
section

namespace Sys2Proof

/-! ## The opcode map (R66, R68) -/

theorem Opcode.code_range (op : Opcode) : (1 ≤ op.code ∧ op.code ≤ 9) ∨ op.code = 99 := by
  cases op <;> decide

theorem Opcode.exists_code_eq {c : Int} (h : (1 ≤ c ∧ c ≤ 9) ∨ c = 99) : ∃ op : Opcode, op.code = c := by
  rcases h with ⟨hlow, hhigh⟩ | rfl
  · interval_cases c
    exacts [⟨.add, rfl⟩, ⟨.mul, rfl⟩, ⟨.inp, rfl⟩, ⟨.out, rfl⟩, ⟨.jnz, rfl⟩, ⟨.jz, rfl⟩, ⟨.lt, rfl⟩, ⟨.eq, rfl⟩,
      ⟨.arb, rfl⟩]
  · exact ⟨.hlt, rfl⟩

theorem Opcode.ofCode_eq_none_iff {c : Int} : Opcode.ofCode c = none ↔ ¬ ((1 ≤ c ∧ c ≤ 9) ∨ c = 99) := by
  constructor
  · intro hnone hmap
    obtain ⟨op, rfl⟩ := Opcode.exists_code_eq hmap
    simp [Opcode.ofCode_code] at hnone
  · intro hout
    cases hc : Opcode.ofCode c with
    | none => rfl
    | some op => exact absurd (Opcode.code_of_ofCode hc ▸ op.code_range) hout

/-- The decoder reports an unknown opcode only for a code outside the map, and then it is the word's own code. -/
theorem decodeHead_unknownOpcode_iff {w : Word} {c : Int} :
    decodeHead w = .error (.unknownOpcode c) ↔ c = opcodeField w ∧ Opcode.ofCode (opcodeField w) = none := by
  constructor
  · intro e
    rcases decodeHead_error e with ⟨hf, hnone⟩ | ⟨_, _, _, _, hf⟩ | ⟨_, _, _, hf⟩
    · exact ⟨DecodeFault.unknownOpcode.inj hf, hnone⟩
    · cases hf
    · cases hf
  · rintro ⟨rfl, hnone⟩
    rw [decodeHead, hnone]

/-- Settles O8: the codes outside the map are those that name no operation, and the code of a word that is not negative
is a remainder from 0 to 99. -/
theorem unknownOpcodeExactlyOutsideTheMap : Obligations.UnknownOpcodeExactlyOutsideTheMap := by
  refine ⟨fun w => ?anyWord, fun w hw => ?nonneg, rfl⟩
  case anyWord =>
    rw [decodeHead_unknownOpcode_iff, Opcode.ofCode_eq_none_iff]
    exact and_iff_right rfl
  case nonneg =>
    simp only [decodeHead_unknownOpcode_iff, exists_eq_left, Opcode.ofCode_eq_none_iff]
    rw [opcodeField, trem_of_nonneg hw]
    omega

/-! ## The mode digits of a word with a valid opcode (R62, R69) -/

/-- No negative word has a valid opcode (R69). -/
theorem toInt_nonneg_of_code {w : Word} {op : Opcode} (h : op.code = trem w.toInt 100) : 0 ≤ w.toInt := by
  by_contra hneg
  have hcode := op.code_range
  have htrem := trem_neg (not_le.mp hneg)
  omega

/-- With a valid opcode the record's digits are the word's: none is negative, so none is cut off at 0. -/
theorem natCast_modeDigit {w : Word} {op : Opcode} (h : op.code = trem w.toInt 100) (k : Nat) :
    (modeDigit w k : Int) = digit w.toInt (k + 1) :=
  Int.toNat_of_nonneg (digit_range_of_nonneg (toInt_nonneg_of_code h) (k + 1)).1

theorem natCast_ofWord_digit {w : Word} {op : Opcode} (h : op.code = trem w.toInt 100) {k : Nat} (h1 : 1 ≤ k)
    (hk : k ≤ op.operandCount) : ((Head.ofWord w op).digit k : Int) = digit w.toInt (k + 1) := by
  rw [Head.ofWord_digit w op h1 (hk.trans op.operandCount_le), natCast_modeDigit h]

/-- Settles O10: the word's digits are those of its record, where the tests run in ascending operand number. -/
theorem invalidModeOfTheLowestOperand : Obligations.InvalidModeOfTheLowestOperand := by
  intro w op k hop h1 hk hbad hlow
  have hdigit := natCast_ofWord_digit hop h1 hk
  have hlower : ∀ j, 1 ≤ j → j < k → (Head.ofWord w op).digit j ≤ 2 := by
    intro j hj hjk
    have hdigitj := natCast_ofWord_digit hop hj (hjk.le.trans hk)
    have hlowj := hlow j hj hjk
    omega
  rw [decodeHead_code hop.symm, checkHead_invalidMode h1 hk (by omega) hlower, ← hdigit, Int.toNat_natCast]

/-! ## The write operand (R72) -/

theorem checkDest_immediate {h : Head} {d : Nat} (hd : h.op.destIndex = some d) (h1 : h.digit d = 1) :
    checkDest h = .error (.invalidWriteTarget d) := by
  simp [checkDest, hd, h1]

theorem checkDest_legal {h : Head} (hne : ∀ d, h.op.destIndex = some d → h.digit d ≠ 1) : checkDest h = .ok h := by
  cases hd : h.op.destIndex with
  | none => simp [checkDest, hd]
  | some d => simp [checkDest, hd, hne d hd]

/-- Settles O11: with its used digits legal, a record meets only the test of the write operand, and it is returned as it
stands in the word. -/
theorem immediateDestinationIsInvalidWriteTarget : Obligations.ImmediateDestinationIsInvalidWriteTarget := by
  intro w op hop hvalid
  have hused : ∀ k, 1 ≤ k → k ≤ op.operandCount → (Head.ofWord w op).digit k ≤ 2 := by
    intro k h1 hk
    have hdigit := natCast_ofWord_digit hop h1 hk
    have hvalidk := hvalid k h1 hk
    omega
  have hdest : ∀ d, op.destIndex = some d → ((Head.ofWord w op).digit d : Int) = digit w.toInt (d + 1) := by
    intro d hd
    obtain ⟨h1, hk⟩ := Opcode.destIndex_range hd
    exact natCast_ofWord_digit hop h1 hk
  rw [decodeHead_code hop.symm, checkHead_legal hused]
  refine ⟨fun d hd himm => ?immediate, fun hne => ?legal⟩
  case immediate =>
    exact checkDest_immediate hd (by have := hdest d hd; omega)
  case legal =>
    refine ⟨Head.ofWord w op, checkDest_legal fun d hd h1 => hne d hd ?_, rfl, natCast_modeDigit hop 1,
      natCast_modeDigit hop 2, natCast_modeDigit hop 3, fun k h1 hk => ?_⟩
    · rw [← hdest d hd, h1, Nat.cast_one]
    · rw [Head.mode_code (hused k h1 hk), natCast_ofWord_digit hop h1 hk]

end Sys2Proof
end

-- The read operand of 40_step_and_operands.md in its three modes (R94, R95, R97).
section

namespace Sys2Proof.Machine

/-! ## The effective address of each mode (R94, R97) -/

@[simp] theorem effectiveAddr_position (s : State) (p : Word) :
    effectiveAddr s ⟨.position, p⟩ = some p.toInt := rfl

@[simp] theorem effectiveAddr_immediate (s : State) (p : Word) : effectiveAddr s ⟨.immediate, p⟩ = none := rfl

@[simp] theorem effectiveAddr_relative (s : State) (p : Word) :
    effectiveAddr s ⟨.relative, p⟩ = some (p.toInt + s.rb.toInt) := rfl

/-- The two modes that name a cell, each with its exact address. -/
theorem effectiveAddr_of_mode {s : State} {m : Mode} {p : Word} {e : Int}
    (h : (m = .position ∧ e = p.toInt) ∨ (m = .relative ∧ e = p.toInt + s.rb.toInt)) :
    effectiveAddr s ⟨m, p⟩ = some e := by
  rcases h with ⟨rfl, rfl⟩ | ⟨rfl, rfl⟩
  · exact effectiveAddr_position s p
  · exact effectiveAddr_relative s p

/-! ## A read is the address check, then the cell (R42, R95) -/

theorem memRead_of_checkAddr_ok {s : State} {a : Int} {n : Nat} (h : checkAddr s a = .ok n) :
    memRead s a = .ok (s.mem.read n) := by
  rw [memRead, h]

theorem memRead_of_checkAddr_error {s : State} {a : Int} {f : Fault} (h : checkAddr s a = .error f) :
    memRead s a = .error f := by
  rw [memRead, h]

theorem readOperand_of_effectiveAddr {s : State} {o : Operand} {e : Int} (h : effectiveAddr s o = some e) :
    readOperand s o = memRead s e := by
  rw [readOperand, h]

theorem readOperand_immediate (s : State) (p : Word) : readOperand s ⟨.immediate, p⟩ = .ok p := by
  rw [readOperand, effectiveAddr_immediate]

/-- Settles O15: with an effective address the operand is a memory read, and that read answers as the exact address
check does. -/
theorem readOperandByMode : Obligations.ReadOperandByMode := by
  refine fun s p => ⟨readOperand_immediate s p, fun m e hmode => ?_⟩
  obtain ⟨hnegative, habove, hinside, -⟩ := addressCheckIsExact s e
  rw [readOperand_of_effectiveAddr (effectiveAddr_of_mode hmode)]
  exact ⟨fun h => memRead_of_checkAddr_error (hnegative h), fun h => memRead_of_checkAddr_error (habove h),
    fun h0 h1 => memRead_of_checkAddr_ok (hinside h0 h1)⟩

end Sys2Proof.Machine
end

-- The targets of the conditional jumps of 43_jumps.md, settled in the jump's own step and in the next one (R142).
section

namespace Sys2Proof.Machine

/-! ## The condition (R140, R141) -/

theorem isZero_eq_true_iff (v : Word) : isZero v = true ↔ v = 0 :=
  decide_eq_true_iff.trans (BitVec.toInt_inj (y := 0))

/-- Either jump is the shared body under a test that holds of `v1` exactly when the jump is taken. -/
theorem exec_eq_commit_jumpIf {i : Instr} {a b : Operand} {v1 : Word} {taken : Prop}
    (h : (i = .jnz a b ∧ taken = (v1 ≠ 0)) ∨ (i = .jz a b ∧ taken = (v1 = 0))) (s : State) :
    ∃ g : Word → Bool, (g v1 = true ↔ taken) ∧ exec i s = s.commit (jumpIf g a b s) := by
  rcases h with ⟨rfl, rfl⟩ | ⟨rfl, rfl⟩
  · exact ⟨fun v => !isZero v, by rw [ne_eq, ← isZero_eq_true_iff, Bool.not_eq_true, Bool.not_eq_true'], rfl⟩
  · exact ⟨isZero, isZero_eq_true_iff v1, rfl⟩

/-! ## The shared body once both operands are read (R98, R142) -/

section
variable {s : State} {a b : Operand} {v1 v2 : Word} {g : Word → Bool}
  (h1 : readOperand s a = .ok v1) (h2 : readOperand s b = .ok v2)
include h1 h2

theorem jumpIf_of_read : jumpIf g a b s =
    if g v1 then if v2.toInt < 0 then .error (.negativeAddress v2.toInt) else .ok (s.setIp v2.toInt.toNat)
    else .ok (s.advance 3) := by
  rw [jumpIf, h1, ok_bind, h2, ok_bind]

theorem jumpIf_taken_negative (ht : g v1 = true) (hneg : v2.toInt < 0) :
    jumpIf g a b s = .error (.negativeAddress v2.toInt) := by
  rw [jumpIf_of_read h1 h2, if_pos ht, if_pos hneg]

theorem jumpIf_taken_nonneg (ht : g v1 = true) (hnn : 0 ≤ v2.toInt) :
    jumpIf g a b s = .ok (s.setIp v2.toInt.toNat) := by
  rw [jumpIf_of_read h1 h2, if_pos ht, if_neg hnn.not_gt]

theorem jumpIf_not_taken (ht : ¬ g v1 = true) : jumpIf g a b s = .ok (s.advance 3) := by
  rw [jumpIf_of_read h1 h2, if_neg ht]

end

/-! ## The step behind a jump out of memory (R92) -/

theorem fetchInstr_above {s : State} (h : s.cfg.memDepth ≤ s.ip) :
    fetchInstr s = .error (.addressOverflow (s.ip : Int)) := by
  rw [fetchInstr, memRead_above h, error_bind]

theorem step_executing_above {s : State} (hs : s.Executing) (h : s.cfg.memDepth ≤ s.ip) :
    step s = .next (s.faultWith (.addressOverflow (s.ip : Int))) := by
  rw [step_executing hs, State.runInstr, fetchInstr_above h]

theorem State.Executing.setIp {s : State} (h : s.Executing) (n : Nat) : (s.setIp n).Executing := h

/-- Settles O26: both jumps share one body, which tests the sign of the target after the condition and before `ip` is
written; `MEM_DEPTH` is first met by the fetch of the next step. -/
theorem jumpTargetIsCheckedOnlyWhenTaken : Obligations.JumpTargetIsCheckedOnlyWhenTaken := by
  intro s a b v1 v2 h1 h2 i taken hi
  obtain ⟨g, hg, hexec⟩ := exec_eq_commit_jumpIf hi s
  have hjump (ht : taken) (hnn : 0 ≤ v2.toInt) : exec i s = .next (s.setIp v2.toInt.toNat) := by
    rw [hexec, jumpIf_taken_nonneg h1 h2 (hg.mpr ht) hnn, State.commit_ok]
  refine ⟨fun ht hneg => ?negative, fun ht => ?notTaken, hjump, fun ht habove hs => ?above⟩
  case negative =>
    rw [hexec, jumpIf_taken_negative h1 h2 (hg.mpr ht) hneg, State.commit_error]
    rfl
  case notTaken =>
    rw [hexec, jumpIf_not_taken h1 h2 (mt hg.mp ht), State.commit_ok]
    rfl
  case above =>
    have hnn : 0 ≤ v2.toInt := (Int.natCast_nonneg _).trans habove
    have hip : ((s.setIp v2.toInt.toNat).ip : Int) = v2.toInt := Int.toNat_of_nonneg hnn
    have hstep := step_executing_above (hs.setIp v2.toInt.toNat) (by rw [State.setIp_cfg]; omega)
    rw [hip] at hstep
    exact ⟨_, hjump ht hnn, hstep⟩

end Sys2Proof.Machine
end

-- The round trip of the encoding and what a decoded word says (30_encoding.md R61, R62, R69, R71, R72, R81, R83).
section

namespace Sys2Proof

/-! ## The canonical instruction word (R81): its opcode field and its mode digits -/

theorem modesValue_eq_mul (weight : Int) (os : List Operand) : modesValue weight os = weight * modesValue 1 os := by
  induction os generalizing weight with
  | nil => simp [modesValue]
  | cons o os ih => rw [modesValue, modesValue, ih (10 * weight), ih (10 * 1)]; ring

theorem modesValue_cons (o : Operand) (os : List Operand) :
    modesValue 1 (o :: os) = o.mode.code + 10 * modesValue 1 os := by
  rw [modesValue, modesValue_eq_mul (10 * 1), one_mul, mul_one]

theorem modesValue_nonneg (os : List Operand) : 0 ≤ modesValue 1 os := by
  induction os with
  | nil => exact le_rfl
  | cons o os ih => rw [modesValue_cons]; omega

/-- The digit of weight `10^k` in the mode digits of a list of operands is the mode of operand `k`. -/
theorem modesValue_ediv_emod {os : List Operand} {k : Nat} {o : Operand} (h : os[k]? = some o) :
    modesValue 1 os / 10 ^ k % 10 = o.mode.code := by
  induction os generalizing k with
  | nil => simp at h
  | cons p os ih =>
    have hp := Laws.mode_code_le p.mode
    rw [modesValue_cons]
    cases k with
    | zero =>
      obtain rfl : p = o := by simpa using h
      rw [pow_zero, Int.ediv_one]
      omega
    | succ k =>
      have hshift : ((p.mode.code : Int) + 10 * modesValue 1 os) / 10 = modesValue 1 os := by omega
      rw [pow_succ', ← Int.ediv_ediv_of_nonneg (by norm_num), hshift]
      exact ih (by simpa using h)

theorem Instr.headValue_eq (i : Instr) : i.headValue = i.op.code + 100 * modesValue 1 i.operands := by
  rw [headValue, modesValue_eq_mul]

theorem Instr.headValue_range (i : Instr) : 1 ≤ i.headValue ∧ i.headValue ≤ 22299 := by
  cases i with
  | add a b d => exact Laws.HeadValueRange.add a b d
  | mul a b d => exact Laws.HeadValueRange.mul a b d
  | inp d => exact Laws.HeadValueRange.inp d
  | out a => exact Laws.HeadValueRange.out a
  | jnz a b => exact Laws.HeadValueRange.jnz a b
  | jz a b => exact Laws.HeadValueRange.jz a b
  | lt a b d => exact Laws.HeadValueRange.lt a b d
  | eq a b d => exact Laws.HeadValueRange.eq a b d
  | arb a => exact Laws.HeadValueRange.arb a
  | hlt => exact Laws.HeadValueRange.hlt

theorem Instr.toInt_wrap64_headValue (i : Instr) : (wrap64 i.headValue).toInt = i.headValue := by
  obtain ⟨hlow, hhigh⟩ := i.headValue_range
  exact toInt_wrap64_of_range (by omega) (by omega)

theorem Instr.trem_headValue (i : Instr) : trem i.headValue 100 = i.op.code := by
  have hcode := i.op.code_range
  rw [trem_of_nonneg (by have := i.headValue_range; omega), i.headValue_eq]
  omega

theorem Instr.digit_headValue {i : Instr} {k : Nat} {o : Operand} (h : i.operands[k]? = some o) :
    digit i.headValue (k + 2) = o.mode.code := by
  have hcode := i.op.code_range
  have hmodes : i.headValue / 100 = modesValue 1 i.operands := by rw [i.headValue_eq]; omega
  have hpow : (10 : Int) ^ (k + 2) = 100 * 10 ^ k := by ring
  rw [digit_of_nonneg (by have := i.headValue_range; omega), hpow, ← Int.ediv_ediv_of_nonneg (by norm_num), hmodes,
    modesValue_ediv_emod h]

/-! ## The operands of an instruction (R64, R65) -/

theorem Instr.length_operands (i : Instr) : i.operands.length = i.op.operandCount := by
  cases i <;> rfl

/-- The write operand of a well-formed instruction is one of its operands and is not Immediate (R65, R72). -/
theorem Instr.exists_dest_operand {i : Instr} (hwf : i.WellFormed) {d : Nat} (hd : i.op.destIndex = some d) :
    ∃ o, i.operands[d - 1]? = some o ∧ o.mode ≠ .immediate := by
  have hwritable : ∀ o : Operand, o.writable = true → o.mode ≠ .immediate := fun o ho hm => by
    simp [Operand.writable, hm] at ho
  cases i with
  | add _ _ o => cases hd; exact ⟨o, rfl, hwritable o hwf⟩
  | mul _ _ o => cases hd; exact ⟨o, rfl, hwritable o hwf⟩
  | inp o => cases hd; exact ⟨o, rfl, hwritable o hwf⟩
  | lt _ _ o => cases hd; exact ⟨o, rfl, hwritable o hwf⟩
  | eq _ _ o => cases hd; exact ⟨o, rfl, hwritable o hwf⟩
  | out _ => cases hd
  | jnz _ _ => cases hd
  | jz _ _ => cases hd
  | arb _ => cases hd
  | hlt => cases hd

theorem Head.instr_operands (h : Head) (ps : List Word) :
    (h.instr ps).operands = (List.range h.op.operandCount).map fun k => ⟨h.mode (k + 1), ps.getD k 0⟩ := by
  obtain ⟨op, m1, m2, m3⟩ := h
  cases op <;> rfl

/-- An instruction is its operation and its operands. -/
theorem Head.instr_eq_of_operands {h : Head} {ps : List Word} {i : Instr} (hop : h.op = i.op)
    (ho : (h.instr ps).operands = i.operands) : h.instr ps = i := by
  obtain ⟨op, m1, m2, m3⟩ := h
  subst hop
  cases i <;> simp_all [Head.instr, Instr.op, Instr.operands]

theorem Mode.code_injective {m n : Mode} (h : m.code = n.code) : m = n :=
  Option.some.inj (by rw [← Mode.ofDigit_code m, h, Mode.ofDigit_code])

/-! ## The front of a sequence of Words (R60) -/

theorem decode_cons {w : Word} {ps : List Word} {h : Head} (hh : decodeHead w = .ok h)
    (hcount : h.op.operandCount ≤ ps.length) :
    decode (w :: ps) = .ok (h.instr ps, ps.drop h.op.operandCount) := by
  simp only [decode, hh, if_neg (not_lt.mpr hcount)]

/-! ## The round trip (R67, R81) -/

@[simp] theorem Head.ofWord_op (w : Word) (op : Opcode) : (Head.ofWord w op).op = op := rfl

section
variable {w : Word} {i : Instr} (hop : i.op.code = trem w.toInt 100)
  (hmodes : ∀ (k : Nat) (o : Operand), i.operands[k]? = some o → digit w.toInt (k + 2) = o.mode.code)
include hop hmodes

/-- The record of a word with an instruction's opcode and mode digits holds the digit of each operand's mode. -/
theorem ofWord_digit_of_operand {k : Nat} {o : Operand} (ho : i.operands[k]? = some o) :
    (Head.ofWord w i.op).digit (k + 1) = o.mode.code := by
  have hk : k < i.operands.length := (List.getElem?_eq_some_iff.mp ho).1
  have hdigit := natCast_ofWord_digit hop (k := k + 1) (by omega) (by rw [← i.length_operands]; omega)
  exact_mod_cast hdigit.trans (hmodes k o ho)

/-- A word with the opcode and the mode digits of a well-formed instruction passes every test of the decoder. -/
theorem decodeHead_of_digits (hwf : i.WellFormed) : decodeHead w = .ok (Head.ofWord w i.op) := by
  rw [decodeHead_code hop.symm, checkHead_legal, checkDest_legal]
  · intro d hd hone
    obtain ⟨o, ho, hne⟩ := Instr.exists_dest_operand hwf hd
    have hdigit := ofWord_digit_of_operand hop hmodes ho
    rw [Nat.sub_add_cancel (Opcode.destIndex_range hd).1, hone] at hdigit
    exact hne (Mode.code_injective hdigit.symm)
  · intro k h1 hk
    obtain ⟨o, ho⟩ : ∃ o, i.operands[k - 1]? = some o :=
      ⟨_, List.getElem?_eq_getElem (by rw [i.length_operands]; rw [Head.ofWord_op] at hk; omega)⟩
    have hdigit := ofWord_digit_of_operand hop hmodes ho
    rw [Nat.sub_add_cancel h1] at hdigit
    exact hdigit ▸ Laws.mode_code_le o.mode

/-- Behind such a word the operand words make the instruction again. -/
theorem ofWord_instr_of_operands (rest : List Word) :
    (Head.ofWord w i.op).instr (i.operands.map Operand.word ++ rest) = i := by
  refine Head.instr_eq_of_operands rfl (List.ext_getElem? fun k => ?_)
  rw [Head.instr_operands, Head.ofWord_op, ← i.length_operands, List.getElem?_map]
  by_cases hk : k < i.operands.length
  · have ho := List.getElem?_eq_getElem hk
    have hdigit := ofWord_digit_of_operand hop hmodes ho
    have hmode : (Head.ofWord w i.op).mode (k + 1) = i.operands[k].mode :=
      Mode.code_injective (by rw [Head.mode_code (hdigit ▸ Laws.mode_code_le _), hdigit])
    simp [hk, hmode, List.getElem?_append]
  · simp [hk]

end

/-- Settles O5: the canonical word has the instruction's opcode field and mode digits, so it passes the decoder's tests
and its record makes the instruction from the operand words. -/
theorem decodeOfEncodeIsTheInstruction : Obligations.DecodeOfEncodeIsTheInstruction := by
  intro i rest hwf
  have hop : i.op.code = trem (wrap64 i.headValue).toInt 100 := by
    rw [i.toInt_wrap64_headValue, i.trem_headValue]
  have hmodes : ∀ k o, i.operands[k]? = some o → digit (wrap64 i.headValue).toInt (k + 2) = o.mode.code :=
    fun k o ho => by rw [i.toInt_wrap64_headValue, Instr.digit_headValue ho]
  have hcount : (i.operands.map Operand.word).length = i.op.operandCount := by
    rw [List.length_map, i.length_operands]
  rw [encode, List.cons_append, decode_cons (decodeHead_of_digits hop hmodes hwf) (by simp [← hcount]),
    ofWord_instr_of_operands hop hmodes, Head.ofWord_op, List.drop_left' hcount]

/-! ## What a decoded word says (R61, R62, R64) -/

theorem Instr.wellFormed_of_decode {ws rest : List Word} {i : Instr} (e : decode ws = .ok (i, rest)) :
    i.WellFormed := by
  obtain ⟨w, ps, h, -, hh, -, rfl, -⟩ := decode_ok e
  exact Head.instr_wellFormed hh ps

theorem Head.instr_words {h : Head} {ps : List Word} (hcount : h.op.operandCount ≤ ps.length) :
    (h.instr ps).operands.map Operand.word = ps.take h.op.operandCount := by
  refine List.ext_getElem (by simp [Head.instr_operands, hcount]) fun k hk _ => ?_
  have hkn : k < h.op.operandCount := by simpa [Head.instr_operands] using hk
  simp [Head.instr_operands, hkn.trans_le hcount]

/-- Every operand of a decoded instruction has the mode whose digit stands in the word. -/
theorem digit_of_instr_operand {w : Word} {h : Head} (hh : decodeHead w = .ok h) {ps : List Word} {k : Nat}
    {o : Operand} (ho : (h.instr ps).operands[k]? = some o) : digit w.toInt (k + 2) = o.mode.code := by
  obtain ⟨hcode, hrec, hused, -⟩ := decodeHead_ok hh
  rw [Head.instr_operands, List.getElem?_map, Option.map_eq_some_iff] at ho
  obtain ⟨j, hj, rfl⟩ := ho
  obtain ⟨hlt, rfl⟩ : k < h.op.operandCount ∧ k = j := by simpa [List.getElem?_eq_some_iff] using hj
  have hdigit : (h.digit (k + 1) : Int) = digit w.toInt (k + 1 + 1) := by
    conv_lhs => rw [hrec]
    exact natCast_ofWord_digit hcode.symm (by omega) hlt
  rw [Head.mode_code (hused (k + 1) (by omega) hlt), hdigit]

/-- Settles O6: the decoded record is the word's own, and its instruction takes the operand words that its opcode
counts. -/
theorem decodedInstructionReadsItsDigits : Obligations.DecodedInstructionReadsItsDigits := by
  intro ws rest i e
  obtain ⟨w, ps, h, rfl, hh, hcount, rfl, rfl⟩ := decode_ok e
  have hwords := Head.instr_words hcount
  refine ⟨Instr.wellFormed_of_decode e, w, ps.take h.op.operandCount, ?split, ?width, hwords, ?encoded, ?code,
    fun k o => digit_of_instr_operand hh⟩
  case split => rw [List.take_append_drop]
  case width => rw [List.length_take_of_le hcount, Head.instr_op, Opcode.width, add_comm]
  case encoded => rw [encode, hwords]
  case code => rw [Head.instr_op, ← (decodeHead_ok hh).1, opcodeField]

/-! ## Digits that are not used (R71) -/

/-- Numbers that agree in their `m` low digits agree in each of them. -/
theorem digit_eq_of_trem_eq {y z : Int} (hy : 0 ≤ y) (hz : 0 ≤ z) {m k : Nat} (hk : k < m)
    (h : trem y (10 ^ m) = trem z (10 ^ m)) : digit y k = digit z k := by
  have hlow : ∀ x : Int, x / 10 ^ k % 10 = x % 10 ^ m / 10 ^ k % 10 := fun x => by
    obtain ⟨j, rfl⟩ := Nat.exists_eq_add_of_lt hk
    have hpow : (10 : Int) ^ (k + j + 1) = 10 ^ k * (10 * 10 ^ j) := by ring
    conv_lhs => rw [← Int.emod_add_mul_ediv x (10 ^ (k + j + 1)), hpow]
    rw [mul_assoc, Int.add_mul_ediv_left _ _ (by positivity), mul_assoc, Int.add_mul_emod_self_left, hpow]
  rw [trem_of_nonneg hy, trem_of_nonneg hz] at h
  rw [digit_of_nonneg hy, digit_of_nonneg hz, hlow, h, ← hlow]

theorem trem_eq_of_dvd {y z b c : Int} (hy : 0 ≤ y) (hz : 0 ≤ z) (hbc : b ∣ c) (h : trem y c = trem z c) :
    trem y b = trem z b := by
  rw [trem_of_nonneg hy, trem_of_nonneg hz] at h ⊢
  rw [← Int.emod_emod_of_dvd y hbc, h, Int.emod_emod_of_dvd z hbc]

/-- Two records of one operation that agree in the digits the operation uses. -/
structure Head.SameUsed (h g : Head) : Prop where
  op : h.op = g.op
  digit : ∀ k, 1 ≤ k → k ≤ g.op.operandCount → h.digit k = g.digit k

section
variable {h g : Head} (hg : h.SameUsed g)
include hg

theorem checkMode_of_sameUsed {k : Nat} (h1 : 1 ≤ k) : checkMode h k = checkMode g k := by
  by_cases hk : k ≤ g.op.operandCount
  · rw [checkMode, checkMode, hg.op, hg.digit k h1 hk]
  · simp [checkMode, hg.op, hk]

theorem checkDest_of_sameUsed : checkDest h = (checkDest g).map fun _ => h := by
  cases hd : g.op.destIndex with
  | none => simp [checkDest, hg.op, hd, Except.map]
  | some d =>
    obtain ⟨h1, hk⟩ := Opcode.destIndex_range hd
    simp only [checkDest, hg.op, hd, hg.digit d h1 hk]
    split <;> rfl

/-- The tests of both records have the same outcome. -/
theorem checkHead_of_sameUsed : checkHead h = (checkHead g).map fun _ => h := by
  simp only [checkHead, checkMode_of_sameUsed hg le_rfl, checkMode_of_sameUsed hg (Nat.le_succ 1),
    checkMode_of_sameUsed hg (show 1 ≤ 3 by decide), checkDest_of_sameUsed hg]
  cases checkMode g 1 with
  | error f => rfl
  | ok _ =>
    cases checkMode g 2 with
    | error f => rfl
    | ok _ => cases checkMode g 3 <;> rfl

/-- Both records make the same instruction. -/
theorem instr_of_sameUsed (ps : List Word) : h.instr ps = g.instr ps := by
  refine Head.instr_eq_of_operands (hg.op.trans (Head.instr_op g ps).symm) ?_
  rw [Head.instr_operands, Head.instr_operands, hg.op]
  refine List.map_congr_left fun k hk => ?_
  rw [Head.mode, hg.digit (k + 1) (by omega) (List.mem_range.mp hk), Head.mode]

end

/-- Words whose records agree in all that is used decode alike, whatever stands behind them. -/
theorem decode_of_sameUsed {w w' : Word} {h g : Head} (hg : h.SameUsed g) (hw' : decodeHead w' = checkHead h)
    (hw : decodeHead w = checkHead g) (ps : List Word) : decode (w' :: ps) = decode (w :: ps) := by
  rw [decode, decode, hw', hw, checkHead_of_sameUsed hg]
  cases hc : checkHead g with
  | error f => rfl
  | ok g' =>
    obtain ⟨rfl, -, -⟩ := checkHead_ok hc
    simp only [Except.map, hg.op, instr_of_sameUsed hg]

/-- Settles O7: the used digits lie below weight `10^(2+n)`, the three digits of the record below `10^5`. -/
theorem unusedDigitsAreIgnored : Obligations.UnusedDigitsAreIgnored := by
  intro w w' op hop hw'
  have hw := toInt_nonneg_of_code hop
  have hcode {m : Nat} (hm : 2 ≤ m) (h : trem w'.toInt (10 ^ m) = trem w.toInt (10 ^ m)) :
      decodeHead w' = checkHead (Head.ofWord w' op) :=
    decodeHead_code <| (trem_eq_of_dvd hw' hw (pow_dvd_pow 10 hm) h).trans hop.symm
  have hrecord := decodeHead_code hop.symm
  refine ⟨fun h => ?_, fun h => ?record⟩
  case record =>
    have hdigit : ∀ k, k ≤ 3 → modeDigit w' k = modeDigit w k := fun k hk => by
      rw [modeDigit, modeDigit, digit_eq_of_trem_eq hw' hw (by omega) h]
    rw [hcode (by omega) h, hrecord, Head.ofWord, Head.ofWord, hdigit 1 (by omega), hdigit 2 (by omega),
      hdigit 3 le_rfl]
  have hused : (Head.ofWord w' op).SameUsed (Head.ofWord w op) := by
    refine ⟨rfl, fun k h1 hk => ?_⟩
    have hk3 := hk.trans op.operandCount_le
    rw [Head.ofWord_op] at hk
    rw [Head.ofWord_digit _ _ h1 hk3, Head.ofWord_digit _ _ h1 hk3, modeDigit, modeDigit,
      digit_eq_of_trem_eq hw' hw (by omega) h]
  refine ⟨decode_of_sameUsed hused (hcode (by omega) h) hrecord, fun f => ?_⟩
  rw [hcode (by omega) h, hrecord, checkHead_of_sameUsed hused]
  cases checkHead (Head.ofWord w op) <;> simp [Except.map]

/-! ## Negative words and the worked table (R69, R83) -/

/-- Settles O9: the opcode field of a negative word is not positive, and no operation has such a code. -/
theorem negativeWordIsUnknownOpcode : Obligations.NegativeWordIsUnknownOpcode := by
  refine ⟨fun w hw => ?_, rfl, rfl, rfl, rfl, rfl⟩
  obtain ⟨hlow, hhigh⟩ := trem_neg hw
  exact ⟨hlow, hhigh, decodeHead_unknownOpcode_iff.mpr ⟨rfl, Opcode.ofCode_nonpos hhigh⟩⟩

/-- Settles O12: the decoder evaluated on each word of the table. -/
theorem workedDecodingsOfTheSpec : Obligations.WorkedDecodingsOfTheSpec := by
  exact ⟨rfl, rfl, rfl, rfl, rfl, rfl, rfl, rfl, rfl, rfl, rfl, rfl, rfl, rfl, rfl, rfl, rfl⟩

end Sys2Proof
end

-- Wrapped arithmetic, memory writes and write operands (41_arithmetic.md section 3, R42, R43, R96).
section

namespace Sys2Proof

/-! ## Wrapped sums and products (R124) -/

theorem dvd_toInt_wrap64_sub (x : Int) : (2 ^ 64 : Int) ∣ (wrap64 x).toInt - x :=
  (wrap64_eq_wrap64_iff _ _).mp (wrap64_toInt _)

theorem wrap64_toInt_wrap64_add (x y : Int) : wrap64 ((wrap64 x).toInt + y) = wrap64 (x + y) := by
  rw [wrap64_eq_wrap64_iff, add_sub_add_right_eq_sub]
  exact dvd_toInt_wrap64_sub x

theorem wrap64_toInt_wrap64_mul (x y : Int) : wrap64 ((wrap64 x).toInt * y) = wrap64 (x * y) := by
  rw [wrap64_eq_wrap64_iff, ← sub_mul]
  exact (dvd_toInt_wrap64_sub x).mul_right y

theorem toInt_wrap64_of_isWord {z : Int} (hmin : wordMin ≤ z) (hmax : z ≤ wordMax) : (wrap64 z).toInt = z := by
  unfold wordMin at hmin
  unfold wordMax at hmax
  exact toInt_wrap64_of_range (by omega) (by omega)

/-- Settles O4: `wrap64` depends on its argument modulo `2^64` only, which sums and products respect. -/
theorem wrappedArithmeticIsModular : Obligations.WrappedArithmeticIsModular := fun x y =>
  ⟨by rw [add_comm], by rw [mul_comm], wrap64_toInt_wrap64_add x y, wrap64_toInt_wrap64_mul x y,
    toInt_wrap64_of_isWord⟩

end Sys2Proof

namespace Sys2Proof.Machine

/-! ## Checked writes (R43) and reads behind them -/

theorem memWrite_of_checkAddr_ok {s : State} {a : Int} {n : Nat} (h : checkAddr s a = .ok n) (v : Word) :
    memWrite s a v = .ok (s.store n v) := by
  rw [memWrite, h]

theorem memWrite_of_checkAddr_error {s : State} {a : Int} {f : Fault} (h : checkAddr s a = .error f) (v : Word) :
    memWrite s a v = .error f := by
  rw [memWrite, h]

/-- The address check looks at `MEM_DEPTH` only, which no store changes. -/
@[simp] theorem checkAddr_store (s : State) (n : Nat) (v : Word) (a : Int) :
    checkAddr (s.store n v) a = checkAddr s a := rfl

theorem memRead_store_other (s : State) {n : Nat} (v : Word) {b : Int} (hb : b ≠ n) :
    memRead (s.store n v) b = memRead s b := by
  cases hc : checkAddr s b with
  | error f => rw [memRead_of_checkAddr_error hc, memRead_of_checkAddr_error (by simpa using hc)]
  | ok m =>
    obtain ⟨h0, -, rfl⟩ := checkAddr_ok hc
    rw [memRead_of_checkAddr_ok hc, memRead_of_checkAddr_ok (by simpa using hc), State.store_mem,
      Memory.read_write_other _ _ (by omega)]

/-- Settles O14: a write is the address check, then the store of that cell, and a read makes the same check. -/
theorem memoryReturnsTheLatestWrite : Obligations.MemoryReturnsTheLatestWrite := by
  intro s a v
  obtain ⟨hnegative, habove, hinside, -⟩ := addressCheckIsExact s a
  refine ⟨fun h0 h1 => ?inside, fun h => ?negative, fun h => ?above⟩
  case inside =>
    have hcell := hinside h0 h1
    refine ⟨_, memWrite_of_checkAddr_ok hcell v, ?_, fun b hb => memRead_store_other s v (by omega), rfl⟩
    rw [memRead_of_checkAddr_ok (by simpa using hcell), State.store_mem, Memory.read_write_same]
  case negative => exact ⟨memWrite_of_checkAddr_error (hnegative h) v, memRead_of_checkAddr_error (hnegative h)⟩
  case above => exact ⟨memWrite_of_checkAddr_error (habove h) v, memRead_of_checkAddr_error (habove h)⟩

/-! ## Write operands (R96) -/

theorem writeAddr_of_effectiveAddr {s : State} {o : Operand} {e : Int} (h : effectiveAddr s o = some e) (k : Nat) :
    writeAddr s k o = checkAddr s e := by
  rw [writeAddr, h]

/-- Settles O16: with an effective address the operand is that address, checked. -/
theorem writeOperandByMode : Obligations.WriteOperandByMode := by
  intro s k p m e hmode
  obtain ⟨hnegative, habove, hinside, -⟩ := addressCheckIsExact s e
  rw [writeAddr_of_effectiveAddr (effectiveAddr_of_mode hmode)]
  exact ⟨hnegative, habove, hinside⟩

end Sys2Proof.Machine
end

-- What each instruction computes once its operands are resolved, and the fault of the first that does not resolve
-- (files 41 to 45 and 40_step_and_operands.md R98, R100).
section

namespace Sys2Proof.Machine

/-! ## ADD, MUL, LT and EQ (R120, R121, R150, R151) -/

theorem storeBinary_of_operands {s : State} {a b d : Operand} {v1 v2 : Word} {d3 : Nat} (g : Word → Word → Word)
    (h1 : readOperand s a = .ok v1) (h2 : readOperand s b = .ok v2) (h3 : writeAddr s 3 d = .ok d3) :
    storeBinary g a b d s = .ok ((s.store d3 (g v1 v2)).advance 4) := by
  rw [storeBinary, h1, ok_bind, h2, ok_bind, h3, ok_bind]

/-- What the shared body commits: the result in the destination cell, `ip` behind the instruction, all else kept. -/
theorem commit_storeBinary {s : State} {a b d : Operand} {v1 v2 : Word} {d3 : Nat} (g : Word → Word → Word)
    (h1 : readOperand s a = .ok v1) (h2 : readOperand s b = .ok v2) (h3 : writeAddr s 3 d = .ok d3) :
    ∃ t, s.commit (storeBinary g a b d s) = .next t ∧ t.mem.read d3 = g v1 v2 ∧
      (∀ x, x ≠ d3 → t.mem.read x = s.mem.read x) ∧ t = { s with mem := t.mem, ip := s.ip + 4 } := by
  rw [storeBinary_of_operands g h1 h2 h3, State.commit_ok]
  exact ⟨_, rfl, Memory.read_write_same .., fun x hx => Memory.read_write_other _ _ hx, rfl⟩

theorem aluLt_eq_ite (x y : Word) : aluLt x y = if x.toInt < y.toInt then 1 else 0 := by
  simp [aluLt, truthWord]

theorem aluEq_eq_ite (x y : Word) : aluEq x y = if x = y then 1 else 0 := by
  simp [aluEq, truthWord, BitVec.toInt_inj]

/-- Settles O17: the shared body with the wrapped sum. -/
theorem addStoresTheWrappedSum : Obligations.AddStoresTheWrappedSum :=
  fun _ _ _ _ _ _ _ => commit_storeBinary aluAdd

/-- Settles O18: the shared body with the wrapped product. -/
theorem mulStoresTheWrappedProduct : Obligations.MulStoresTheWrappedProduct :=
  fun _ _ _ _ _ _ _ => commit_storeBinary aluMul

/-- Settles O19: the shared body with the truth value of the signed comparison. -/
theorem ltStoresTheSignedComparison : Obligations.LtStoresTheSignedComparison := by
  intro s a b d v1 v2 d3 h1 h2 h3
  rw [← aluLt_eq_ite]
  exact commit_storeBinary aluLt h1 h2 h3

/-- Settles O20: the shared body with the truth value of equality; equal signed values are equal Words. -/
theorem eqStoresTheEquality : Obligations.EqStoresTheEquality := by
  intro s a b d v1 v2 d3 h1 h2 h3
  rw [← aluEq_eq_ite]
  exact commit_storeBinary aluEq h1 h2 h3

/-! ## IN and OUT (R130, R131) -/

theorem exec_inp_of_writeAddr {s : State} {d : Operand} {d1 : Nat} (h : writeAddr s 1 d = .ok d1) :
    exec (.inp d) s = .next (takeInput s d1) := by
  rw [exec, execInp, h, ok_bind, State.commit_ok]

theorem takeInput_nil {s : State} (h : s.inq = []) (d1 : Nat) : takeInput s d1 = s.endRun .needsInput := by
  rw [takeInput, h]

theorem takeInput_cons {s : State} {v : Word} {rest : List Word} (h : s.inq = v :: rest) (d1 : Nat) :
    takeInput s d1 = ((s.store d1 v).setInq rest).advance 2 := by
  rw [takeInput, h]

/-- Settles O21: with its destination checked, IN takes the head of the queue. -/
theorem inTakesTheHeadOfTheQueue : Obligations.InTakesTheHeadOfTheQueue := by
  intro s d d1 v rest hd hq
  rw [exec_inp_of_writeAddr hd, takeInput_cons hq]
  exact ⟨_, rfl, Memory.read_write_same .., fun x hx => Memory.read_write_other _ _ hx, rfl⟩

/-- Settles O22: with its destination checked, IN on an empty queue only ends the run. -/
theorem inOnEmptyQueueNeedsInput : Obligations.InOnEmptyQueueNeedsInput := by
  intro s d d1 hd hq
  rw [exec_inp_of_writeAddr hd, takeInput_nil hq]
  rfl

theorem exec_out_of_read {s : State} {a : Operand} {v1 : Word} (h : readOperand s a = .ok v1) :
    exec (.out a) s = .next ((s.advance 2).endRun (.output v1)) := by
  rw [exec, execOut, h, ok_bind, State.commit_ok]

/-- Settles O23: the operand read, OUT advances and ends the run with it. -/
theorem outEndsTheRunWithItsValue : Obligations.OutEndsTheRunWithItsValue :=
  fun _ _ _ => exec_out_of_read

/-! ## The jumps, ARB and HLT (R140, R141, R160, R161) -/

/-- Settles O24: the jump statement with the condition "not zero". -/
theorem jnzJumpsOnNonZero : Obligations.JnzJumpsOnNonZero := by
  intro s a b v1 v2 h1 h2
  obtain ⟨-, hnot, htaken, -⟩ :=
    jumpTargetIsCheckedOnlyWhenTaken s a b v1 v2 h1 h2 (.jnz a b) (v1 ≠ 0) (.inl ⟨rfl, rfl⟩)
  exact ⟨fun ht hnn => ⟨v2.toInt.toNat, Int.toNat_of_nonneg hnn, htaken ht hnn⟩, fun h0 => hnot (not_not.mpr h0)⟩

/-- Settles O25: the jump statement with the condition "zero". -/
theorem jzJumpsOnZero : Obligations.JzJumpsOnZero := by
  intro s a b v1 v2 h1 h2
  obtain ⟨-, hnot, htaken, -⟩ :=
    jumpTargetIsCheckedOnlyWhenTaken s a b v1 v2 h1 h2 (.jz a b) (v1 = 0) (.inr ⟨rfl, rfl⟩)
  exact ⟨fun ht hnn => ⟨v2.toInt.toNat, Int.toNat_of_nonneg hnn, htaken ht hnn⟩, hnot⟩

theorem exec_arb_of_read {s : State} {a : Operand} {v1 : Word} (h : readOperand s a = .ok v1) :
    exec (.arb a) s = .next ((s.setRb (aluAdd s.rb v1)).advance 2) := by
  rw [exec, execArb, h, ok_bind, State.commit_ok]

/-- Settles O27: the operand read with the old `rb`, ARB adds it with wrap. -/
theorem arbAddsToTheRelativeBase : Obligations.ArbAddsToTheRelativeBase :=
  fun _ _ _ => exec_arb_of_read

theorem exec_hlt (s : State) : exec .hlt s = .next ((s.setRunState .halted).endRun .halted) := rfl

/-- Settles O28: HLT checks nothing, so it commits in every state. -/
theorem hltHaltsWhereItStands : Obligations.HltHaltsWhereItStands := exec_hlt

/-! ## The first operand that faults (R98, R208) -/

theorem storeBinary_of_fault {s : State} {a b d : Operand} {f : Fault} (g : Word → Word → Word)
    (h : readOperand s a = .error f ∨ ((∃ v1, readOperand s a = .ok v1) ∧ (readOperand s b = .error f ∨
      ((∃ v2, readOperand s b = .ok v2) ∧ writeAddr s 3 d = .error f)))) :
    storeBinary g a b d s = .error f := by
  rcases h with h1 | ⟨⟨v1, h1⟩, h2 | ⟨⟨v2, h2⟩, h3⟩⟩
  · rw [storeBinary, h1, error_bind]
  · rw [storeBinary, h1, ok_bind, h2, error_bind]
  · rw [storeBinary, h1, ok_bind, h2, ok_bind, h3, error_bind]

theorem jumpIf_of_fault {s : State} {a b : Operand} {f : Fault} (g : Word → Bool)
    (h : readOperand s a = .error f ∨ ((∃ v1, readOperand s a = .ok v1) ∧ readOperand s b = .error f)) :
    jumpIf g a b s = .error f := by
  rcases h with h1 | ⟨⟨v1, h1⟩, h2⟩
  · rw [jumpIf, h1, error_bind]
  · rw [jumpIf, h1, ok_bind, h2, error_bind]

theorem exec_inp_of_fault {s : State} {d : Operand} {f : Fault} (h : writeAddr s 1 d = .error f) :
    exec (.inp d) s = .next (s.faultWith f) := by
  rw [exec, execInp, h, error_bind, State.commit_error]

theorem exec_out_of_fault {s : State} {a : Operand} {f : Fault} (h : readOperand s a = .error f) :
    exec (.out a) s = .next (s.faultWith f) := by
  rw [exec, execOut, h, error_bind, State.commit_error]

theorem exec_arb_of_fault {s : State} {a : Operand} {f : Fault} (h : readOperand s a = .error f) :
    exec (.arb a) s = .next (s.faultWith f) := by
  rw [exec, execArb, h, error_bind, State.commit_error]

/-- Settles O29: each body resolves its operands in ascending order and stops at the first fault, which is committed. -/
theorem firstFaultingOperandIsTheFault : Obligations.FirstFaultingOperandIsTheFault := by
  intro s a b d f
  refine ⟨fun i hi h => ?store, fun i hi h => ?jump, fun i hi h => ?single, exec_inp_of_fault⟩
  case store =>
    rcases hi with rfl | rfl | rfl | rfl <;> exact congrArg s.commit (storeBinary_of_fault _ h)
  case jump =>
    rcases hi with rfl | rfl <;> exact congrArg s.commit (jumpIf_of_fault _ h)
  case single =>
    rcases hi with rfl | rfl
    · exact exec_out_of_fault h
    · exact exec_arb_of_fault h

/-! ## Operands matter through what they resolve to (R100) -/

theorem storeBinary_congr {s : State} {a a' b b' d d' : Operand} (g : Word → Word → Word)
    (ha : readOperand s a = readOperand s a') (hb : readOperand s b = readOperand s b')
    (hd : writeAddr s 3 d = writeAddr s 3 d') : storeBinary g a b d s = storeBinary g a' b' d' s := by
  rw [storeBinary, ha, hb, hd, storeBinary]

theorem jumpIf_congr {s : State} {a a' b b' : Operand} (g : Word → Bool)
    (ha : readOperand s a = readOperand s a') (hb : readOperand s b = readOperand s b') :
    jumpIf g a b s = jumpIf g a' b' s := by
  rw [jumpIf, ha, hb, jumpIf]

/-- Settles O30: every meaning takes its operands through `readOperand` and `writeAddr` only. -/
theorem equalOperandsHaveEqualEffect : Obligations.EqualOperandsHaveEqualEffect := by
  intro s a a' b b' d d' ha hb hd3 hd1
  have hstore (g : Word → Word → Word) := congrArg s.commit (storeBinary_congr g ha hb hd3)
  have hjump (g : Word → Bool) := congrArg s.commit (jumpIf_congr g ha hb)
  refine ⟨hstore aluAdd, hstore aluMul, hstore aluLt, hstore aluEq, hjump fun v => !isZero v, hjump isZero, ?inp, ?out,
    ?arb⟩
  case inp => rw [exec, execInp, hd1, exec, execInp]
  case out => rw [exec, execOut, ha, exec, execOut]
  case arb => rw [exec, execArb, ha, exec, execArb]

end Sys2Proof.Machine
end

-- What an instruction leaves unchanged, and how an iteration of the run loop ends or goes on
-- (40_step_and_operands.md section 5, 46_run_loop_and_host.md R171, R172).
section

namespace Sys2Proof.Machine

/-! ## The frame of a completed instruction -/

theorem State.storedCell_of_writeAddr {s : State} {i : Instr} {k n : Nat} {d : Operand} (hd : i.dest = some (k, d))
    (hw : writeAddr s k d = .ok n) (hq : ¬ (i.op = .inp ∧ s.inq = [])) : s.storedCell i = some n := by
  simp only [storedCell, hd, if_neg hq, hw]

section
variable {s t : State} {i : Instr} (h : Commits s i t)
include h

theorem Commits.cfg_eq : t.cfg = s.cfg := by cases h <;> rfl

theorem Commits.requests_eq : t.requests = s.requests := by cases h <;> rfl

theorem Commits.rb_eq (hop : i.op ≠ .arb) : t.rb = s.rb := by
  cases h with
  | relBase => exact absurd rfl hop
  | _ => rfl

theorem Commits.inq_eq_or_takes_head : t.inq = s.inq ∨ (i.op = .inp ∧ ∃ v, s.inq = v :: t.inq) := by
  cases h with
  | input hd hq => exact .inr ⟨rfl, _, hq⟩
  | _ => exact .inl rfl

theorem Commits.read_eq {x : Nat} (hx : s.storedCell i ≠ some x) : t.mem.read x = s.mem.read x := by
  have hne {k n : Nat} {d : Operand} (hd : i.dest = some (k, d)) (hw : writeAddr s k d = .ok n)
      (hq : ¬ (i.op = .inp ∧ s.inq = [])) : x ≠ n := by
    rintro rfl
    exact hx (State.storedCell_of_writeAddr hd hw hq)
  cases h with
  | store hi hop ha hb => exact Memory.read_write_other _ _ (hne hi ha fun hinp => hop hinp.1)
  | input hd hq => exact Memory.read_write_other _ _ (hne rfl hd (by simp [hq]))
  | _ => rfl

end

/-- Settles O31: a completed instruction has the frame of its kind, and a fault changes none of these parts. -/
theorem instructionWritesOnlyItsDestination : Obligations.InstructionWritesOnlyItsDestination := by
  intro i s t h
  rcases exec_cases h with h | ⟨f, -, rfl⟩
  · exact ⟨fun _ => h.read_eq, h.rb_eq, h.inq_eq_or_takes_head, h.cfg_eq, h.requests_eq⟩
  · exact ⟨fun _ _ => rfl, fun _ => rfl, .inl rfl, rfl, rfl⟩

/-! ## One iteration of the run loop (R171, R172) -/

/-- The run state that the table of R172 gives an outcome. -/
def RunOutcome.leaves : RunOutcome → RunState
  | .halted => .halted
  | .needsInput => .running
  | .output _ => .running
  | .fault f => .faulted f

/-- `t` is where a run transaction stands that went on from `s` without an outcome. -/
structure State.GoesOn (s t : State) : Prop where
  busy : t.busy = s.busy
  runState : t.runState = s.runState
  replies : t.replies = s.replies

/-- `t` is where a run transaction stands that ended in `s` with the outcome `o`. -/
structure State.EndsWith (s : State) (o : RunOutcome) (t : State) : Prop where
  busy : t.busy = false
  runState : t.runState = o.leaves
  replies : t.replies = s.replies ++ [.outcome o]

theorem State.faultWith_endsWith (s : State) (f : Fault) : s.EndsWith (.fault f) (s.faultWith f) := ⟨rfl, rfl, rfl⟩

theorem Commits.goesOn_or_ends {s t : State} {i : Instr} (h : Commits s i t) (hr : s.runState = .running) :
    s.GoesOn t ∨ ∃ o, s.EndsWith o t ∧ ∀ f, o ≠ .fault f := by
  cases h with
  | needsInput => exact .inr ⟨.needsInput, ⟨rfl, hr, rfl⟩, fun _ e => by cases e⟩
  | @output _ v => exact .inr ⟨.output v, ⟨rfl, hr, rfl⟩, fun _ e => by cases e⟩
  | halt => exact .inr ⟨.halted, ⟨rfl, rfl, rfl⟩, fun _ e => by cases e⟩
  | _ => exact .inl ⟨rfl, rfl, rfl⟩

/-- A completed instruction records no fault. -/
theorem Commits.runState_ne_faulted {s t : State} {i : Instr} (h : Commits s i t) (hr : s.runState = .running)
    (f : Fault) : t.runState ≠ .faulted f := by
  rcases h.goesOn_or_ends hr with hgo | ⟨o, hend, hne⟩
  · rw [hgo.runState, hr]
    exact RunState.noConfusion
  · rw [hend.runState]
    cases o with
    | fault g => exact absurd rfl (hne g)
    | _ => exact RunState.noConfusion

/-- What an iteration on a running core does: the fault of its fetch or of its operands, or the commit of the
instruction fetched. -/
theorem runOnce_running_cases {s t : State} (hr : s.runState = .running) (h : s.runOnce = .next t) :
    (∃ i, fetchInstr s = .ok i ∧ Commits s i t) ∨
    ∃ f, (fetchInstr s = .error f ∨ ∃ i, fetchInstr s = .ok i ∧ OperandFault s i f) ∧ t = s.faultWith f := by
  rcases runOnce_cases h with ⟨hr', -⟩ | ⟨f, hr', -⟩ | ⟨-, ⟨f, hf, rfl⟩ | ⟨i, hi, he⟩⟩
  · simp [hr] at hr'
  · simp [hr] at hr'
  · exact .inr ⟨f, .inl hf, rfl⟩
  · rcases exec_cases he with hc | ⟨f, hf, rfl⟩
    · exact .inl ⟨i, hi, hc⟩
    · exact .inr ⟨f, .inr ⟨i, hi, hf⟩, rfl⟩

theorem runOnce_requests {s t : State} (h : s.runOnce = .next t) : t.requests = s.requests := by
  obtain ⟨u, hu, hu'⟩ := runOnce_setRequests s s.requests
  rw [State.setRequests_self, h] at hu'
  cases hu'
  rfl

/-- An iteration of the run loop goes on without a reply, or ends the run with one outcome and its run state. -/
theorem runOnce_goesOn_or_ends {s t : State} (h : s.runOnce = .next t) : s.GoesOn t ∨ ∃ o, s.EndsWith o t := by
  rcases runOnce_cases h with ⟨hr, rfl⟩ | ⟨f, hr, rfl⟩ | ⟨hr, -⟩
  · exact .inr ⟨.halted, rfl, hr, rfl⟩
  · exact .inr ⟨.fault f, rfl, hr, rfl⟩
  · rcases runOnce_running_cases hr h with ⟨i, -, hc⟩ | ⟨f, -, rfl⟩
    · exact (hc.goesOn_or_ends hr).imp_right fun ⟨o, hend, _⟩ => ⟨o, hend⟩
    · exact .inr ⟨.fault f, s.faultWith_endsWith f⟩

/-! ## A move in which no reset acts -/

theorem step_loops_requests {s t : State} {rs : List HostAction} (hl : s.LoopsWith rs) (h : step s = .next t) :
    t.requests = rs := by
  rw [step_loops hl] at h
  exact runOnce_requests h

/-- Such a move goes on or ends the run as an iteration of the run loop does. -/
theorem step_loops_goesOn_or_ends {s t : State} {rs : List HostAction} (hl : s.LoopsWith rs)
    (h : step s = .next t) : s.GoesOn t ∨ ∃ o, s.EndsWith o t := by
  rw [step_loops hl] at h
  rcases runOnce_goesOn_or_ends h with ⟨hb, hr, hp⟩ | ⟨o, hb, hr, hp⟩
  · exact .inl ⟨hb, hr, hp⟩
  · exact .inr ⟨o, hb, hr, hp⟩

end Sys2Proof.Machine
end

-- The fetch phases, the step and fault entry (40_step_and_operands.md R90 to R93, 60_exceptions.md R206, R208).
section

namespace Sys2Proof.Machine

/-! ## The phases of a fetch (R91) -/

@[simp] theorem fetchInstr_setRequests (s : State) (rs : List HostAction) :
    fetchInstr (s.setRequests rs) = fetchInstr s := fetchInstr_congr rfl rfl rfl

theorem decodePhase_of_decodeHead {w : Word} {h : Head} (hh : decodeHead w = .ok h) : decodePhase w = .ok h := by
  rw [decodePhase, hh]

section
variable {s : State} (hip : s.ip < s.cfg.memDepth)
include hip

theorem fetchInstr_of_decode_fault {f : Fault} (h : decodePhase (s.mem.read s.ip) = .error f) :
    fetchInstr s = .error f := by
  rw [fetchInstr, memRead_cell hip, ok_bind, h, error_bind]

theorem fetchInstr_of_decoded {h : Head} (hh : decodePhase (s.mem.read s.ip) = .ok h) :
    fetchInstr s = fetchWords s (s.ip + 1) h.op.operandCount >>= fun ps => .ok (h.instr ps) := by
  rw [fetchInstr, memRead_cell hip, ok_bind, hh, ok_bind]

end

/-- The fetch reads the instruction that the Words at `ip` decode to. -/
theorem fetchInstr_of_holds {s : State} {ws rest : List Word} {i : Instr} (hws : s.Holds s.ip ws)
    (e : decode ws = .ok (i, rest)) : fetchInstr s = .ok i := by
  obtain ⟨w, ps, h, rfl, hh, hcount, rfl, -⟩ := decode_ok e
  obtain ⟨hdepth, hread⟩ := hws
  have hw : s.mem.read s.ip = w := hread 0 (by simp)
  rw [List.length_cons] at hdepth
  obtain ⟨qs, hqs⟩ := fetchWords_inside (s := s) h.op.operandCount (s.ip + 1) (.inr (by omega))
  rw [fetchInstr_of_decoded (by omega) (hw ▸ decodePhase_of_decodeHead hh), hqs, ok_bind]
  obtain ⟨-, -, hcell⟩ := fetchWords_ok hqs
  congr 1
  refine h.instr_congr fun k hk => ?_
  have hps : s.mem.read (s.ip + (k + 1)) = ps[k] := hread (k + 1) (by simp; omega)
  rw [hcell k hk, List.getD_eq_getElem _ _ (hk.trans_le hcount), ← hps]
  congr 1
  omega

theorem runOnce_of_fetchInstr_ok {s : State} {i : Instr} (hr : s.runState = .running) (hi : fetchInstr s = .ok i) :
    s.runOnce = exec i s := by
  rw [State.runOnce, hr, State.runInstr, hi]

theorem runOnce_of_fetchInstr_error {s : State} {f : Fault} (hr : s.runState = .running)
    (hf : fetchInstr s = .error f) : s.runOnce = .next (s.faultWith f) := by
  rw [State.runOnce, hr, State.runInstr, hf]

/-- Settles O32: the fetch finds the instruction, and a reset still to come is none of its business. -/
theorem stepRunsTheDecodedInstruction : Obligations.StepRunsTheDecodedInstruction := by
  intro s ws rest i hws e
  have hfetch := fetchInstr_of_holds hws e
  refine ⟨fun hs => ?executing, fun n image rs hb hr hq => ?pending⟩
  case executing => rw [step_executing hs, State.runInstr, hfetch]
  case pending =>
    rw [step_loops ⟨hb, .inr ⟨n, image, rs, hq, rfl⟩⟩]
    exact runOnce_of_fetchInstr_ok hr (by rw [fetchInstr_setRequests, hfetch])

/-! ## Faults of the fetch (R208) -/

/-- Settles O33: each phase reads only behind the ones before it, and its fault is committed. -/
theorem fetchFaultsInOrder : Obligations.FetchFaultsInOrder := by
  intro s rs hl hr f hf
  have hfetch : fetchInstr s = .error f := by
    rcases hf with ⟨habove, rfl⟩ | ⟨hip, hdec⟩ | ⟨hip, h, k, hdec, h1, hk, hend, rfl⟩
    · exact fetchInstr_above habove
    · exact fetchInstr_of_decode_fault hip hdec
    · rw [fetchInstr_of_decoded hip hdec, fetchWords_first_above _ (s.ip + 1) (k - 1) (by omega)
        (fun j hj => by omega) (by omega), error_bind, show s.ip + 1 + (k - 1) = s.ip + k by omega]
  rw [step_loops hl]
  exact runOnce_of_fetchInstr_error hr (by rw [fetchInstr_setRequests, hfetch])

/-- Settles O34: an iteration that leaves a running core faulted committed no instruction, so it took that fault. -/
theorem faultsArePrecise : Obligations.FaultsArePrecise := by
  intro s t rs f hl hr h hf
  rw [step_loops hl] at h
  have hr' : (s.setRequests rs).runState = .running := hr
  rcases runOnce_running_cases hr' h with ⟨i, -, hc⟩ | ⟨g, -, rfl⟩
  · exact absurd hf (hc.runState_ne_faulted hr' f)
  · cases hf
    rfl

/-! ## A stored instruction word (R49) -/

theorem State.Holds.store_cons {s : State} {a : Nat} {ps : List Word} (h : s.Holds (a + 1) ps) (v : Word) :
    (s.store a v).Holds a (v :: ps) := by
  obtain ⟨hdepth, hread⟩ := h
  refine ⟨by rw [List.length_cons, State.store_cfg]; omega, fun k hk => ?_⟩
  rw [State.store_mem]
  cases k with
  | zero => exact Memory.read_write_same ..
  | succ k =>
    rw [Memory.read_write_other _ _ (by omega), List.getElem_cons_succ, ← hread k (by simpa using hk)]
    congr 1
    omega

/-- Settles O35: the fetch of the next step reads the stored Word. -/
theorem storedWordIsFetchedAtOnce : Obligations.StoredWordIsFetchedAtOnce := by
  intro s v hs hip
  have hs' : (s.store s.ip v).Executing := hs
  refine ⟨fun f hf => ?fault, fun ps rest i hps e => ?instr⟩
  case fault =>
    have hread : (s.store s.ip v).mem.read (s.store s.ip v).ip = v := Memory.read_write_same ..
    rw [step_executing hs', State.runInstr,
      fetchInstr_of_decode_fault (s := s.store s.ip v) hip (by rw [hread, hf])]
    rfl
  case instr => exact (stepRunsTheDecodedInstruction _ _ rest i (hps.store_cons v) e).1 hs'

/-! ## Every step answers (93_implementation_defined.md section 1) -/

theorem runOnce_next (s : State) : ∃ t, s.runOnce = .next t :=
  have ⟨t, ht, _⟩ := runOnce_setRequests s []
  ⟨t, ht⟩

/-- Settles O36: host actions answer a state, and so does every iteration of the run loop. -/
theorem everyStepHasANextState : Obligations.EveryStepHasANextState := by
  intro s
  unfold step
  split
  · unfold State.busyStep
    split
    · exact ⟨_, rfl⟩
    · exact runOnce_next _
    · exact runOnce_next _
  · unfold State.idleStep
    split <;> exact ⟨_, rfl⟩

end Sys2Proof.Machine
end

-- What the host may do between run transactions and inside one, and what the ports show
-- (46_run_loop_and_host.md R173 to R181, 70_reset_and_hazards.md R240 to R243).
section

namespace Sys2Proof.Machine

/-! ## Moves of the host (R177, R242) -/

theorem step_idle {s : State} (hb : s.busy = false) (hr : s.requests = []) : step s = .next s := by
  rw [step, hb, State.idleStep, hr]
  rfl

theorem step_host {s : State} {act : HostAction} {rs : List HostAction} (hb : s.busy = false)
    (hr : s.requests = act :: rs) : step s = .next ((s.setRequests rs).hostAct act) := by
  rw [step, hb, State.idleStep, hr]
  rfl

theorem step_cut {s : State} {image : List Int} {rs : List HostAction} (hb : s.busy = true)
    (hr : s.requests = .resetCutting 0 image :: rs) : step s = .next ((s.setRequests rs).hostReset image) := by
  rw [step, hb, State.busyStep, hr]
  rfl

/-- Settles O48: `Run()` sets `busy`, and with nothing asked for nothing happens. -/
theorem hostStartsTheRun : Obligations.HostStartsTheRun :=
  ⟨fun _ _ => step_host, fun _ => step_idle⟩

/-! ## Runs on a halted and on a faulted core (R173, R174) -/

theorem runOnce_of_halted {s : State} (hr : s.runState = .halted) : s.runOnce = .next (s.endRun .halted) := by
  rw [State.runOnce, hr]

theorem runOnce_of_faulted {s : State} {f : Fault} (hr : s.runState = .faulted f) :
    s.runOnce = .next (s.endRun (.fault f)) := by
  rw [State.runOnce, hr]

/-- Settles O44: the iteration of a halted core ends the run. -/
theorem runAfterHaltReturnsHalted : Obligations.RunAfterHaltReturnsHalted := by
  intro s rs hl hr
  rw [step_loops hl]
  exact runOnce_of_halted hr

/-- Settles O45: the iteration of a faulted core ends the run with the fault recorded. -/
theorem runAfterFaultReturnsTheFault : Obligations.RunAfterFaultReturnsTheFault := by
  intro s rs f hl hr
  rw [step_loops hl]
  exact runOnce_of_faulted hr

/-! ## Push (R176) -/

theorem State.queueHasRoom_iff (s : State) :
    s.queueHasRoom = true ↔ ∀ n, s.cfg.inqDepth = some n → s.inq.length < n := by
  cases h : s.cfg.inqDepth with
  | none => simp [queueHasRoom, h]
  | some m => simp [queueHasRoom, h]

theorem hostPush_of_room {s : State} (h : ∀ n, s.cfg.inqDepth = some n → s.inq.length < n) (v : Word) :
    s.hostPush v = (s.setInq (s.inq ++ [v])).reply .accepted :=
  if_pos (s.queueHasRoom_iff.mpr h)

theorem hostPush_of_full {s : State} {n : Nat} (hn : s.cfg.inqDepth = some n) (h : n ≤ s.inq.length) (v : Word) :
    s.hostPush v = s.reply (.refused .queueFull) :=
  if_neg fun hroom => (s.queueHasRoom_iff.mp hroom n hn).not_ge h

/-- Settles O49: a push looks at the capacity and the length of the queue only. -/
theorem pushAppendsWhenThereIsRoom : Obligations.PushAppendsWhenThereIsRoom := by
  intro s v rs hb hr
  rw [step_host hb hr]
  exact ⟨fun hroom => congrArg _ (hostPush_of_room (s := s.setRequests rs) hroom v),
    fun n hn hfull => congrArg _ (hostPush_of_full (s := s.setRequests rs) hn hfull v)⟩

/-! ## Peek (R179) -/

theorem hostPeek_of_ok {s : State} {a : Int} {v : Word} (h : memRead s a = .ok v) :
    s.hostPeek a = s.reply (.word v) := by
  rw [State.hostPeek, h]

theorem hostPeek_of_error {s : State} {a : Int} {f : Fault} (h : memRead s a = .error f) :
    s.hostPeek a = s.reply (.refused .noSuchCell) := by
  rw [State.hostPeek, h]

theorem hostPeek_eq_reply (s : State) (a : Int) : ∃ r, s.hostPeek a = s.reply r := by
  cases h : memRead s a with
  | ok v => exact ⟨_, hostPeek_of_ok h⟩
  | error f => exact ⟨_, hostPeek_of_error h⟩

/-- Settles O50: a peek is a checked read, and a fault of that check is the host's refusal only. -/
theorem peekReadsOneCell : Obligations.PeekReadsOneCell := by
  intro s a rs hb hr
  rw [step_host hb hr]
  obtain ⟨hnegative, habove, hinside, -⟩ := addressCheckIsExact (s.setRequests rs) a
  refine ⟨fun h0 h1 => congrArg _ (hostPeek_of_ok (memRead_of_checkAddr_ok (hinside h0 h1))), fun hout => congrArg _ ?_⟩
  rcases hout with h | h
  · exact hostPeek_of_error (memRead_of_checkAddr_error (hnegative h))
  · exact hostPeek_of_error (memRead_of_checkAddr_error (habove h))

/-! ## Reset with load (R80, R240, R241, R243) -/

theorem all_isWord_iff (image : List Int) :
    image.all isWord = true ↔ ∀ z ∈ image, wordMin ≤ z ∧ z ≤ wordMax := by
  simp [isWord]

section
variable {s : State} {image : List Int}

theorem hostReset_of_entryNotWord (h : ∃ z ∈ image, z < wordMin ∨ wordMax < z) :
    s.hostReset image = s.reply (.refused .entryNotWord) := by
  obtain ⟨z, hz, hout⟩ := h
  have hall : ¬ image.all isWord = true := fun hall => by
    have hword := (all_isWord_iff image).mp hall z hz
    omega
  rw [State.hostReset, if_pos (by simpa using hall)]

variable (hw : ∀ z ∈ image, wordMin ≤ z ∧ z ≤ wordMax)
include hw

theorem hostReset_of_loadOverflow (h : s.cfg.memDepth < image.length) :
    s.hostReset image = s.reply (.refused .loadOverflow) := by
  rw [State.hostReset, (all_isWord_iff image).mpr hw, if_neg (by decide), if_pos h]

variable (h : image.length ≤ s.cfg.memDepth)
include h

theorem hostReset_of_fits : s.hostReset image = (s.load image).reply .accepted := by
  rw [State.hostReset, (all_isWord_iff image).mpr hw, if_neg (by decide), if_neg h.not_gt]

/-- A reset with an image that loads: its cells, every other cell, and every register. -/
theorem hostReset_loads : ∃ t, s.hostReset image = t ∧
    (∀ a, ∀ ha : a < image.length, (t.mem.read a).toInt = image[a]) ∧
    (∀ a, image.length ≤ a → t.mem.read a = 0) ∧
    t = { cfg := s.cfg, ip := 0, rb := 0, mem := t.mem, inq := [], runState := .running, busy := false,
          requests := s.requests, replies := s.replies ++ [.accepted] } := by
  have hcell (a : Nat) : ((s.load image).reply .accepted).mem.read a = (image.map wrap64).getD a 0 := by
    simpa using Memory.read_load 0 a (image.map wrap64)
  rw [hostReset_of_fits hw h]
  refine ⟨_, rfl, fun a ha => ?entry, fun a ha => ?beyond, rfl⟩
  case entry =>
    obtain ⟨hmin, hmax⟩ := hw _ (List.getElem_mem ha)
    rw [hcell, List.getD_eq_getElem _ _ (by simpa using ha), List.getElem_map, toInt_wrap64_of_isWord hmin hmax]
  case beyond => rw [hcell, List.getD_eq_default _ _ (by simpa using ha)]

end

/-- Between run transactions both forms of the request are the same reset. -/
theorem step_reset {s : State} {image : List Int} {rs : List HostAction} (hb : s.busy = false)
    (hr : s.requests = .reset image :: rs ∨ ∃ n, s.requests = .resetCutting n image :: rs) :
    step s = .next ((s.setRequests rs).hostReset image) := by
  rcases hr with hr | ⟨n, hr⟩
  · exact step_host hb hr
  · exact step_host hb hr

/-- Settles O51: the host's move is the reset, whose image loads. -/
theorem resetLoadsTheImage : Obligations.ResetLoadsTheImage := by
  intro s image rs hb hr hw hl
  obtain ⟨t, rfl, hloaded⟩ := hostReset_loads (s := s.setRequests rs) hw hl
  exact ⟨_, step_reset hb hr, hloaded⟩

/-- Settles O52: the host's move is the reset, which is refused for its first failing check. -/
theorem badImageIsRefused : Obligations.BadImageIsRefused := by
  intro s image rs hb hr
  rw [step_reset hb hr]
  exact ⟨fun hbad => congrArg _ (hostReset_of_entryNotWord hbad),
    fun hw hl => congrArg _ (hostReset_of_loadOverflow (s := s.setRequests rs) hw hl)⟩

/-- A move in which no reset acts is the move with nothing asked for, but for the requests it leaves. -/
theorem step_loops_as_unasked {s : State} {rs : List HostAction} (hl : s.LoopsWith rs) :
    ∃ u, step { s with requests := [] } = .next u ∧ step s = .next { u with requests := rs } := by
  have hunasked : (s.setRequests []).LoopsWith [] := ⟨hl.1, .inl ⟨rfl, rfl⟩⟩
  obtain ⟨u, hu, hu'⟩ := runOnce_setRequests (s.setRequests []) rs
  exact ⟨u, (step_loops hunasked).trans hu, (step_loops hl).trans hu'⟩

/-- Settles O53: a cutting reset whose turn has come is the reset itself; every other move is one without requests. -/
theorem onlyResetCutsARun : Obligations.OnlyResetCutsARun := by
  intro s hb
  refine ⟨fun image rs hr hw hl => ?loads, fun image rs hr => ?refused, fun n image rs hr => ?pending, fun hu => ?other⟩
  case loads =>
    obtain ⟨t, rfl, hloaded⟩ := hostReset_loads (s := s.setRequests rs) hw hl
    exact ⟨_, step_cut hb hr, hloaded⟩
  case refused =>
    rw [step_cut hb hr]
    exact ⟨fun hbad => congrArg _ (hostReset_of_entryNotWord hbad),
      fun hw hl => congrArg _ (hostReset_of_loadOverflow (s := s.setRequests rs) hw hl)⟩
  case pending => exact step_loops_as_unasked ⟨hb, .inr ⟨n, image, rs, hr, rfl⟩⟩
  case other => exact step_loops_as_unasked ⟨hb, .inl ⟨hu, rfl⟩⟩

/-! ## The ports (R181, R201) -/

/-- Settles O54: the tables of the status ports, read off. -/
theorem statusPortNumbers : Obligations.StatusPortNumbers := by
  refine ⟨rfl, rfl, fun _ => rfl, fun _ => ⟨rfl, rfl⟩, fun _ => ⟨rfl, rfl⟩, rfl, rfl, rfl, rfl, ?_⟩
  exact ⟨fun _ => ⟨rfl, rfl⟩, fun _ => ⟨rfl, rfl⟩, fun _ => ⟨rfl, rfl⟩, fun _ => ⟨rfl, rfl⟩, fun _ _ => ⟨rfl, rfl⟩⟩

/-- The information of every fault that can be recorded is a 65-bit signed number. -/
theorem Fault.Legal.info_range {depth : Nat} {f : Fault} (h : f.Legal depth) : -2 ^ 64 ≤ f.info ∧ f.info < 2 ^ 64 := by
  cases f with
  | negativeAddress a =>
    obtain ⟨hlow, hhigh⟩ := h
    exact ⟨hlow, by simp only [Fault.info]; omega⟩
  | unknownOpcode c =>
    obtain ⟨hlow, hhigh, -⟩ := h
    exact ⟨by simp only [Fault.info]; omega, by simp only [Fault.info]; omega⟩
  | invalidWriteTarget k =>
    obtain rfl | rfl := h <;> decide
  | addressOverflow a =>
    obtain ⟨hlow, hhigh⟩ := h
    exact ⟨by simp only [Fault.info]; omega, by simp only [Fault.info]; omega⟩
  | invalidMode k d =>
    obtain ⟨-, hk, -, hd⟩ := h
    exact ⟨by simp only [Fault.info]; omega, by simp only [Fault.info]; omega⟩

/-- Settles O55: a number in the range of 65 bits signed is kept by those 65 bits. -/
theorem statusInfoFitsItsPort : Obligations.StatusInfoFitsItsPort := by
  intro depth f h
  obtain ⟨hlow, hhigh⟩ := h.info_range
  rw [RunOutcome.stInfo, BitVec.toInt_ofInt]
  exact Int.bmod_eq_of_le (by omega) (by omega)

theorem State.inReady_iff (s : State) :
    s.inReady = true ↔ s.busy = false ∧ ∀ n, s.cfg.inqDepth = some n → s.inq.length < n := by
  rw [inReady, Bool.and_eq_true, Bool.not_eq_true', queueHasRoom_iff]

theorem State.presented_iff {s : State} (hb : s.busy = false) (o : RunOutcome) :
    s.presented = some o ↔ s.replies.getLast? = some (.outcome o) := by
  simp only [presented, hb, Bool.false_eq_true, if_false]
  rcases s.replies.getLast? with - | r
  · simp
  · cases r <;> simp

/-- Settles O56: the ports are functions of the state, and a run that ends hands over its outcome last. -/
theorem portsShowTheCore : Obligations.PortsShowTheCore := by
  refine ⟨State.inReady_iff, fun s v rs hready hr => ?push, fun s a hb => ?peek, fun s a hb => ?busy,
    fun s o hb => State.presented_iff hb o, fun s t rs hl h hb => ?ended⟩
  case push =>
    obtain ⟨hb, hroom⟩ := s.inReady_iff.mp hready
    exact ⟨_, (pushAppendsWhenThereIsRoom s v rs hb hr).1 hroom, rfl⟩
  case peek => exact ⟨fun h => by simp [State.peekData, hb, h], fun h => by simp [State.peekData, hb, h.not_gt]⟩
  case busy => exact ⟨if_pos hb, if_pos hb⟩
  case ended =>
    rcases step_loops_goesOn_or_ends hl h with hgo | ⟨o, hend⟩
    · simp [hgo.busy, hl.1] at hb
    · exact ⟨o, (State.presented_iff hb o).mpr (by simp [hend.replies]), hend.replies⟩

end Sys2Proof.Machine
end

-- The invariant of the machine and the range of a recorded fault's information, kept by every step
-- (10_state.md R31, R32, 60_exceptions.md R201).
section

namespace Sys2Proof.Machine

/-! ## Reset (R32) -/

/-- Settles O37: the values of reset, read off. -/
theorem resetStateHasTheSpecsValues : Obligations.ResetStateHasTheSpecsValues := by
  exact ⟨rfl, rfl, rfl, rfl, Memory.read_nil, rfl, rfl, rfl, rfl, rfl⟩

/-- Settles O38: the empty memory and the empty queue meet every clause, and the core is not faulted. -/
theorem resetStateHasTheInvariant : Obligations.ResetStateHasTheInvariant := by
  refine ⟨⟨?config, ?ip, rfl, ?inside, ?queue⟩, fun f hf => by cases hf⟩
  case config => decide
  case ip => decide
  case inside => exact fun c hc => absurd hc List.not_mem_nil
  case queue => exact fun n _ => Nat.zero_le n

/-! ## The invariant under the updates of the state -/

section
variable {s t : State} (hs : s.Inv)
include hs

/-- Where the parameters and the memory stay, only `ip` and the length of the queue matter. -/
theorem State.Inv.of_mem_eq (hc : t.cfg = s.cfg) (hm : t.mem = s.mem) (hip : t.ip < 2 ^ 63)
    (hq : ∀ n, s.cfg.inqDepth = some n → t.inq.length ≤ n) : t.Inv where
  config := hc ▸ hs.config
  ip := hip
  canonical := hm ▸ hs.canonical
  inside := by rw [hc, hm]; exact hs.inside
  queue := by rw [hc]; exact hq

/-- An update of the registers, the run state or the host's side. -/
theorem State.Inv.of_registers (hc : t.cfg = s.cfg) (hm : t.mem = s.mem) (hq : t.inq = s.inq)
    (hip : t.ip < 2 ^ 63) : t.Inv :=
  hs.of_mem_eq hc hm hip (hq ▸ hs.queue)

theorem State.Inv.store {a : Nat} (ha : a < s.cfg.memDepth) (v : Word) : (s.store a v).Inv where
  config := hs.config
  ip := hs.ip
  canonical := Memory.wf_write hs.canonical a v
  inside := fun _ hc => by
    rcases Memory.mem_write hc with rfl | hc
    · exact ha
    · exact hs.inside _ hc
  queue := hs.queue

/-- `MEM_DEPTH` is at most `2^62`, so `ip` may advance from any address of the memory (R99). -/
theorem State.Inv.advance_lt (hip : s.ip < s.cfg.memDepth) {n : Nat} (hn : n ≤ 4) : s.ip + n < 2 ^ 63 := by
  obtain ⟨-, hdepth, -⟩ := hs.config
  omega

/-- Every instruction fetched from inside the memory keeps the invariant. -/
theorem Commits.inv {i : Instr} (hip : s.ip < s.cfg.memDepth) (h : Commits s i t) : t.Inv := by
  have hadvance {n : Nat} (hn : n ≤ 4) : s.ip + n < 2 ^ 63 := hs.advance_lt hip hn
  cases h with
  | @store _ _ _ _ v d3 _ _ hd _ => exact (hs.store (writeAddr_ok hd).1 v).of_registers rfl rfl rfl (hadvance le_rfl)
  | @input _ v rest d1 hd hq =>
    refine (hs.store (writeAddr_ok hd).1 v).of_mem_eq rfl rfl (hadvance (by decide)) fun n hn => ?_
    have hlen : s.inq.length ≤ n := hs.queue n hn
    rw [hq, List.length_cons] at hlen
    exact Nat.le_of_succ_le hlen
  | needsInput => exact hs.of_registers rfl rfl rfl hs.ip
  | output => exact hs.of_registers rfl rfl rfl (hadvance (by decide))
  | @jump _ _ _ v =>
    have hlt : v.toInt < 2 ^ 63 := (toInt_range v).2
    exact hs.of_registers rfl rfl rfl (by rw [State.setIp_ip]; omega)
  | noJump => exact hs.of_registers rfl rfl rfl (hadvance (by decide))
  | relBase => exact hs.of_registers rfl rfl rfl (hadvance (by decide))
  | halt => exact hs.of_registers rfl rfl rfl hs.ip

theorem runOnce_inv (h : s.runOnce = .next t) : t.Inv := by
  rcases runOnce_cases h with ⟨-, rfl⟩ | ⟨f, -, rfl⟩ | ⟨hr, -⟩
  · exact hs.of_registers rfl rfl rfl hs.ip
  · exact hs.of_registers rfl rfl rfl hs.ip
  · rcases runOnce_running_cases hr h with ⟨i, hi, hc⟩ | ⟨f, -, rfl⟩
    · exact hc.inv hs (fetchInstr_ok hi).1
    · exact hs.of_registers rfl rfl rfl hs.ip

/-! ## The invariant under the host's actions -/

theorem State.Inv.load {image : List Int} (hl : image.length ≤ s.cfg.memDepth) : (s.load image).Inv where
  config := hs.config
  ip := by rw [State.load_ip]; decide
  canonical := Memory.wf_load 0 _
  inside := fun c hc => by
    obtain ⟨-, hlt, -⟩ := Memory.load_range hc
    rw [List.length_map] at hlt
    rw [State.load_cfg]
    omega
  queue := fun n _ => Nat.zero_le n

theorem hostReset_inv (image : List Int) : (s.hostReset image).Inv := by
  rcases hostReset_cases s image with ⟨why, e⟩ | ⟨-, hl, e⟩
  · rw [e]
    exact hs.of_registers rfl rfl rfl hs.ip
  · rw [e]
    exact (hs.load hl).of_registers rfl rfl rfl (hs.load hl).ip

theorem hostPush_inv (v : Word) : (s.hostPush v).Inv := by
  unfold State.hostPush
  split
  · next hroom =>
    refine hs.of_mem_eq rfl rfl hs.ip fun n hn => ?_
    have hlt := s.queueHasRoom_iff.mp hroom n hn
    simpa using hlt
  · exact hs.of_registers rfl rfl rfl hs.ip

theorem hostAct_inv (act : HostAction) : (s.hostAct act).Inv := by
  cases act with
  | reset image => exact hostReset_inv hs image
  | resetCutting n image => exact hostReset_inv hs image
  | push v => exact hostPush_inv hs v
  | run => exact hs.of_registers rfl rfl rfl hs.ip
  | peek a =>
    obtain ⟨r, hr⟩ := hostPeek_eq_reply s a
    rw [State.hostAct, hr]
    exact hs.of_registers rfl rfl rfl hs.ip

theorem State.Inv.setRequests (rs : List HostAction) : (s.setRequests rs).Inv := hs.of_registers rfl rfl rfl hs.ip

end

/-- Settles O39: each kind of move keeps the invariant: the host's action, the reset that cuts a run, and the iteration
of the run loop. -/
theorem everyStepKeepsTheInvariant : Obligations.EveryStepKeepsTheInvariant := by
  intro s t hs h
  cases step_cases h with
  | idle => exact hs
  | host => exact hostAct_inv (hs.setRequests _) _
  | cut => exact hostReset_inv (hs.setRequests _) _
  | loop _ _ ht => exact runOnce_inv (hs.setRequests _) ht

/-! ## The information of a fault (R201) -/

section
variable {s : State}

/-- A failed address check carries an address in the range of its cause. -/
theorem Fault.legal_of_address {e : Int} {f : Fault} {depth : Nat} (hlow : -2 ^ 64 ≤ e) (hhigh : e ≤ 2 ^ 64 - 2)
    (h : (e < 0 ∧ f = .negativeAddress e) ∨ ((depth : Int) ≤ e ∧ f = .addressOverflow e)) : f.Legal depth := by
  rcases h with ⟨hneg, rfl⟩ | ⟨habove, rfl⟩
  · exact ⟨hlow, by omega⟩
  · exact ⟨habove, hhigh⟩

/-- The write operand of every instruction is operand 1 or operand 3 (R65). -/
theorem Instr.dest_number {i : Instr} {k : Nat} {d : Operand} (h : i.dest = some (k, d)) : k = 1 ∨ k = 3 := by
  cases i <;> simp [Instr.dest] at h <;> omega

theorem OperandFault.legal {i : Instr} {f : Fault} (h : OperandFault s i f) : f.Legal s.cfg.memDepth := by
  rcases h with ⟨o, -, h⟩ | ⟨k, d, hd, h⟩ | ⟨v, hneg, rfl⟩
  · obtain ⟨e, he, hcheck⟩ := readOperand_error h
    obtain ⟨hlow, hhigh⟩ := effectiveAddr_range he
    exact Fault.legal_of_address hlow hhigh hcheck
  · rcases writeAddr_error h with ⟨-, rfl⟩ | ⟨e, he, hcheck⟩
    · exact Instr.dest_number hd
    · obtain ⟨hlow, hhigh⟩ := effectiveAddr_range he
      exact Fault.legal_of_address hlow hhigh hcheck
  · have hlow := (toInt_range v).1
    exact ⟨by omega, by omega⟩

/-- The opcode field of a word lies within the remainders by 100. -/
theorem opcodeField_range (w : Word) : -99 ≤ opcodeField w ∧ opcodeField w ≤ 99 := by
  rw [opcodeField]
  rcases lt_or_ge w.toInt 0 with hneg | hnn
  · have := trem_neg hneg
    omega
  · rw [trem_of_nonneg hnn]
    omega

theorem decodeCause_legal {w : Word} {g : DecodeFault} (h : decodeHead w = .error g) (depth : Nat) :
    (decodeCause g).Legal depth := by
  rcases decodeHead_error h with ⟨rfl, hnone⟩ | ⟨k, h1, h3, hd, rfl⟩ | ⟨op, d, hd, rfl⟩
  · have hrange := opcodeField_range w
    have hout := Opcode.ofCode_eq_none_iff.mp hnone
    change -99 ≤ opcodeField w ∧ opcodeField w ≤ 98 ∧ ¬ (1 ≤ opcodeField w ∧ opcodeField w ≤ 9)
    omega
  · exact ⟨h1, h3, hd, modeDigit_le_nine w k⟩
  · change d = 1 ∨ d = 3
    cases op <;> simp [Opcode.destIndex] at hd <;> omega

variable (hs : s.Inv)
include hs

theorem fetchInstr_error_legal {f : Fault} (h : fetchInstr s = .error f) : f.Legal s.cfg.memDepth := by
  obtain ⟨-, hdepth, -⟩ := hs.config
  have hip := hs.ip
  rcases fetchInstr_error h with ⟨habove, rfl⟩ | ⟨g, hg, rfl⟩ | ⟨hd, k, -, hk, hlt, hend, rfl⟩
  · exact ⟨by omega, by omega⟩
  · exact decodeCause_legal hg _
  · have hcount := hd.op.operandCount_le
    exact ⟨by omega, by omega⟩

theorem runOnce_faultLegal {t : State} (hf : s.FaultLegal) (h : s.runOnce = .next t) : t.FaultLegal := by
  rcases runOnce_cases h with ⟨-, rfl⟩ | ⟨f, -, rfl⟩ | ⟨hr, -⟩
  · exact hf
  · exact hf
  · rcases runOnce_running_cases hr h with ⟨i, -, hc⟩ | ⟨f, hcause, rfl⟩
    · exact fun g hg => absurd hg (hc.runState_ne_faulted hr g)
    · intro g hg
      cases hg
      rcases hcause with hfetch | ⟨i, -, hoperand⟩
      · exact fetchInstr_error_legal hs hfetch
      · exact hoperand.legal

end

theorem hostReset_faultLegal {s : State} (hf : s.FaultLegal) (image : List Int) : (s.hostReset image).FaultLegal := by
  rcases hostReset_cases s image with ⟨why, e⟩ | ⟨-, -, e⟩
  · rw [e]
    exact hf
  · rw [e]
    exact fun f h => by cases h

theorem hostAct_faultLegal {s : State} (hf : s.FaultLegal) (act : HostAction) : (s.hostAct act).FaultLegal := by
  cases act with
  | reset image => exact hostReset_faultLegal hf image
  | resetCutting n image => exact hostReset_faultLegal hf image
  | push v =>
    rw [State.hostAct, State.hostPush]
    split <;> exact hf
  | run => exact hf
  | peek a =>
    obtain ⟨r, hr⟩ := hostPeek_eq_reply s a
    rw [State.hostAct, hr]
    exact hf

/-- Settles O40: a recorded fault is kept, cleared by a reset, or raised in the move by a check whose address, code or
digit is in range. -/
theorem faultInformationStaysInRange : Obligations.FaultInformationStaysInRange := by
  intro s t hs hf h
  have hf' (rs : List HostAction) : (s.setRequests rs).FaultLegal := hf
  cases step_cases h with
  | idle => exact hf
  | host => exact hostAct_faultLegal (hf' _) _
  | cut => exact hostReset_faultLegal (hf' _) _
  | loop _ _ ht => exact runOnce_faultLegal (hs.setRequests _) (hf' _) ht

end Sys2Proof.Machine
end

-- Halted and faulted cores, whole runs, and the independence of the core from its host
-- (10_state.md R26, R31, 46_run_loop_and_host.md R171, R172, R178).
section

namespace Sys2Proof.Machine

/-! ## Halted and faulted cores stay as they are (R31) -/

/-- `t` is `s` but for the host's side and Words appended to the queue. -/
def State.OnlyQueueGrows (s t : State) : Prop :=
  t.ip = s.ip ∧ t.rb = s.rb ∧ t.mem = s.mem ∧ t.runState = s.runState ∧ ∃ q, t.inq = s.inq ++ q

theorem State.OnlyQueueGrows.of_inq_eq {s t : State} (hip : t.ip = s.ip) (hrb : t.rb = s.rb) (hm : t.mem = s.mem)
    (hr : t.runState = s.runState) (hq : t.inq = s.inq) : s.OnlyQueueGrows t :=
  ⟨hip, hrb, hm, hr, [], by simp [hq]⟩

/-- A host action that is no reset leaves the core alone but for the queue. -/
theorem hostAct_onlyQueueGrows (s : State) {act : HostAction} (hreset : ∀ image, act ≠ .reset image)
    (hcutting : ∀ n image, act ≠ .resetCutting n image) : s.OnlyQueueGrows (s.hostAct act) := by
  cases act with
  | reset image => exact absurd rfl (hreset image)
  | resetCutting n image => exact absurd rfl (hcutting n image)
  | push v =>
    rw [State.hostAct, State.hostPush]
    split
    · exact ⟨rfl, rfl, rfl, rfl, [v], rfl⟩
    · exact .of_inq_eq rfl rfl rfl rfl rfl
  | run => exact .of_inq_eq rfl rfl rfl rfl rfl
  | peek a =>
    obtain ⟨r, hr⟩ := hostPeek_eq_reply s a
    rw [State.hostAct, hr]
    exact .of_inq_eq rfl rfl rfl rfl rfl

/-- An iteration of the run loop on a core that is not running only ends the run. -/
theorem runOnce_onlyQueueGrows {s t : State} (hr : s.runState ≠ .running) (h : s.runOnce = .next t) :
    s.OnlyQueueGrows t := by
  rcases runOnce_cases h with ⟨-, rfl⟩ | ⟨f, -, rfl⟩ | ⟨hr', -⟩
  · exact .of_inq_eq rfl rfl rfl rfl rfl
  · exact .of_inq_eq rfl rfl rfl rfl rfl
  · exact absurd hr' hr

/-- Settles O41: the moves of a core that is not running, with the two in which a reset acts told apart. -/
theorem haltedAndFaultedAreAbsorbing : Obligations.HaltedAndFaultedAreAbsorbing := by
  intro s t hr h
  cases step_cases h with
  | idle => exact .inl (State.OnlyQueueGrows.of_inq_eq rfl rfl rfl rfl rfl)
  | @host act rest hb hq =>
    cases act with
    | reset image => exact .inr (.inl ⟨hb, image, rest, .inl hq⟩)
    | resetCutting n image => exact .inr (.inl ⟨hb, image, rest, .inr ⟨n, hq⟩⟩)
    | _ => exact .inl (hostAct_onlyQueueGrows (s.setRequests rest) (by simp) (by simp))
  | @cut image rest hb hq => exact .inr (.inr ⟨hb, image, rest, hq⟩)
  | @loop rs _ _ _ ht => exact .inl (runOnce_onlyQueueGrows (s := s.setRequests rs) hr ht)

/-! ## Runs whose host resets nothing (R31, R209) -/

/-- None of the host's requests is a reset. -/
def State.ResetFree (s : State) : Prop :=
  ∀ act ∈ s.requests, (∀ image, act ≠ .reset image) ∧ ∀ n image, act ≠ .resetCutting n image

section
variable {s t : State} (hs : s.ResetFree)
include hs

theorem State.ResetFree.not_cutting {n : Nat} {image : List Int} {rest : List HostAction} :
    s.requests ≠ .resetCutting n image :: rest := fun hq =>
  (hs (.resetCutting n image) (by simp [hq])).2 n image rfl

theorem State.ResetFree.not_reset {image : List Int} {rest : List HostAction} :
    s.requests ≠ .reset image :: rest := fun hq =>
  (hs (.reset image) (by simp [hq])).1 image rfl

/-- The host's requests are used up or left, and none is added. -/
theorem State.ResetFree.step (h : step s = .next t) : t.ResetFree := by
  cases step_cases h with
  | idle => exact hs
  | @host act rest hb hq =>
    have hrequests : ((s.setRequests rest).hostAct act).requests = rest := by
      cases act with
      | reset image => exact absurd hq hs.not_reset
      | resetCutting n image => exact absurd hq hs.not_cutting
      | push v =>
        rw [State.hostAct, State.hostPush]
        split <;> rfl
      | run => rfl
      | peek a =>
        obtain ⟨r, hr⟩ := hostPeek_eq_reply (s.setRequests rest) a
        rw [State.hostAct, hr]
        rfl
    intro a ha
    rw [hrequests] at ha
    exact hs a (hq ▸ List.mem_cons_of_mem act ha)
  | cut _ hq => exact absurd hq hs.not_cutting
  | loop _ hq ht =>
    rcases hq with rfl | ⟨n, image, rest, hq, -⟩
    · intro a ha
      rw [runOnce_requests ht] at ha
      exact hs a ha
    · exact absurd hq hs.not_cutting

theorem State.ResetFree.step_runState (hr : s.runState ≠ .running) (h : Machine.step s = .next t) :
    t.runState = s.runState := by
  rcases haltedAndFaultedAreAbsorbing s t hr h with ⟨-, -, -, hkept, -⟩ | ⟨-, image, rest, hq | ⟨n, hq⟩⟩ |
    ⟨-, image, rest, hq⟩
  · exact hkept
  · exact absurd hq hs.not_reset
  · exact absurd hq hs.not_cutting
  · exact absurd hq hs.not_cutting

end

theorem run_of_step {M : Host.Core} {s u : M.State} (h : M.step s = .next u) (k : Nat) :
    M.run (k + 1) s = M.run k u := by
  rw [Host.Core.run, h]

/-- A run of `k + 1` moves is a move and a run of `k` moves. -/
theorem core_run_succ {k : Nat} {s t : State} (h : Sys2Proof.core.run (k + 1) s = .next t) :
    ∃ u, step s = .next u ∧ Sys2Proof.core.run k u = .next t := by
  obtain ⟨u, hu⟩ := everyStepHasANextState s
  exact ⟨u, hu, (run_of_step (M := Sys2Proof.core) hu k).symm.trans h⟩

/-- A fault does not heal in any number of moves. -/
theorem State.ResetFree.run_faulted {k : Nat} {s t : State} (hs : s.ResetFree) {f : Fault}
    (hf : s.runState = .faulted f) (h : Sys2Proof.core.run k s = .next t) : t.runState = .faulted f := by
  induction k generalizing s with
  | zero =>
    cases h
    exact hf
  | succ k ih =>
    obtain ⟨u, hu, h⟩ := core_run_succ h
    exact ih (hs.step hu) ((hs.step_runState (by simp [hf]) hu).trans hf) h

/-- Settles O42: were a state of the run faulted, its last one would be. -/
theorem unfaultedRunWasSafe : Obligations.UnfaultedRunWasSafe := by
  intro k s t hfree hrun hend
  have hs : s.ResetFree := hfree
  intro j hj u hu f hf
  induction k generalizing s j with
  | zero =>
    obtain rfl : j = 0 := Nat.le_zero.mp hj
    cases hu
    exact hend f (hs.run_faulted hf hrun)
  | succ k ih =>
    cases j with
    | zero =>
      cases hu
      exact hend f (hs.run_faulted hf hrun)
    | succ j =>
      obtain ⟨s', hs', hrun⟩ := core_run_succ hrun
      obtain ⟨s'', hs'', hu⟩ := core_run_succ hu
      obtain rfl : s' = s'' := by simpa [hs'] using hs''
      exact ih s' (hs.step hs') hrun (hs.step hs') j (by omega) hu

/-! ## The core does not look at its host (R178) -/

/-- Two machines with equal cores, both inside or both outside a run transaction. -/
structure State.Alike (s s' : State) : Prop where
  core : s.SameCore s'
  busy : s.busy = s'.busy

section
variable {s s' : State} (h : s.SameCore s')
include h

theorem State.SameCore.cfg_eq : s.cfg = s'.cfg := h.1
theorem State.SameCore.ip_eq : s.ip = s'.ip := h.2.1
theorem State.SameCore.rb_eq : s.rb = s'.rb := h.2.2.1
theorem State.SameCore.mem_eq : s.mem = s'.mem := h.2.2.2.1
theorem State.SameCore.inq_eq : s.inq = s'.inq := h.2.2.2.2.1

end

/-- Two checked computations with the same fault or with results alike. -/
inductive ResultsAlike : Except Fault State → Except Fault State → Prop where
  | ok {t t' : State} (h : t.Alike t') : ResultsAlike (.ok t) (.ok t')
  | error (f : Fault) : ResultsAlike (.error f) (.error f)

theorem ResultsAlike.bind {α : Type} (x : Except Fault α) {g g' : α → Except Fault State}
    (h : ∀ v, ResultsAlike (g v) (g' v)) : ResultsAlike (x >>= g) (x >>= g') := by
  cases x with
  | error f => exact .error f
  | ok v => exact h v

section
variable {s s' : State} (hs : s.Alike s')
include hs

theorem readOperand_of_alike (o : Operand) : readOperand s o = readOperand s' o := by
  obtain ⟨⟨hc, -, hrb, hm, -, -⟩, -⟩ := hs
  simp only [readOperand, effectiveAddr, memRead, checkAddr, hc, hrb, hm]

theorem writeAddr_of_alike (k : Nat) (o : Operand) : writeAddr s k o = writeAddr s' k o := by
  obtain ⟨⟨hc, -, hrb, -, -, -⟩, -⟩ := hs
  simp only [writeAddr, effectiveAddr, checkAddr, hc, hrb]

theorem State.Alike.store (a : Nat) (v : Word) : (s.store a v).Alike (s'.store a v) := by
  obtain ⟨⟨hc, hip, hrb, hm, hq, hr⟩, hb⟩ := hs
  exact ⟨⟨hc, hip, hrb, congrArg (·.write a v) hm, hq, hr⟩, hb⟩

theorem State.Alike.setIp (n : Nat) : (s.setIp n).Alike (s'.setIp n) := by
  obtain ⟨⟨hc, -, hrb, hm, hq, hr⟩, hb⟩ := hs
  exact ⟨⟨hc, rfl, hrb, hm, hq, hr⟩, hb⟩

theorem State.Alike.advance (n : Nat) : (s.advance n).Alike (s'.advance n) := by
  rw [State.advance, State.advance, hs.core.ip_eq]
  exact hs.setIp _

theorem State.Alike.setRb (w : Word) : (s.setRb w).Alike (s'.setRb w) := by
  obtain ⟨⟨hc, hip, -, hm, hq, hr⟩, hb⟩ := hs
  exact ⟨⟨hc, hip, rfl, hm, hq, hr⟩, hb⟩

theorem State.Alike.setInq (q : List Word) : (s.setInq q).Alike (s'.setInq q) := by
  obtain ⟨⟨hc, hip, hrb, hm, -, hr⟩, hb⟩ := hs
  exact ⟨⟨hc, hip, hrb, hm, rfl, hr⟩, hb⟩

theorem State.Alike.setRunState (r : RunState) : (s.setRunState r).Alike (s'.setRunState r) := by
  obtain ⟨⟨hc, hip, hrb, hm, hq, -⟩, hb⟩ := hs
  exact ⟨⟨hc, hip, hrb, hm, hq, rfl⟩, hb⟩

theorem State.Alike.endRun (o : RunOutcome) : (s.endRun o).Alike (s'.endRun o) := ⟨hs.core, rfl⟩

theorem State.Alike.faultWith (f : Fault) : (s.faultWith f).Alike (s'.faultWith f) := (hs.setRunState _).endRun _

theorem takeInput_alike (d : Nat) : (takeInput s d).Alike (takeInput s' d) := by
  have hq : s'.inq = s.inq := hs.core.inq_eq.symm
  cases h : s.inq with
  | nil =>
    rw [takeInput_nil h, takeInput_nil (hq.trans h)]
    exact hs.endRun _
  | cons v rest =>
    rw [takeInput_cons h, takeInput_cons (hq.trans h)]
    exact ((hs.store d v).setInq rest).advance 2

theorem storeBinary_alike (g : Word → Word → Word) (a b d : Operand) :
    ResultsAlike (storeBinary g a b d s) (storeBinary g a b d s') := by
  simp only [storeBinary, readOperand_of_alike hs, writeAddr_of_alike hs]
  exact .bind _ fun v1 => .bind _ fun v2 => .bind _ fun d3 => .ok ((hs.store d3 _).advance 4)

theorem jumpIf_alike (g : Word → Bool) (a b : Operand) : ResultsAlike (jumpIf g a b s) (jumpIf g a b s') := by
  simp only [jumpIf, readOperand_of_alike hs]
  refine .bind _ fun v1 => .bind _ fun v2 => ?_
  split
  · split
    · exact .error _
    · exact .ok (hs.setIp _)
  · exact .ok (hs.advance 3)

theorem commit_alike {r r' : Except Fault State} (h : ResultsAlike r r') :
    ∃ t t', s.commit r = .next t ∧ s'.commit r' = .next t' ∧ t.Alike t' := by
  cases h with
  | ok ht => exact ⟨_, _, rfl, rfl, ht⟩
  | error f => exact ⟨_, _, rfl, rfl, hs.faultWith f⟩

/-- An instruction does the same on machines alike. -/
theorem exec_alike (i : Instr) : ∃ t t', exec i s = .next t ∧ exec i s' = .next t' ∧ t.Alike t' := by
  cases i with
  | add a b d => exact commit_alike hs (storeBinary_alike hs aluAdd a b d)
  | mul a b d => exact commit_alike hs (storeBinary_alike hs aluMul a b d)
  | lt a b d => exact commit_alike hs (storeBinary_alike hs aluLt a b d)
  | eq a b d => exact commit_alike hs (storeBinary_alike hs aluEq a b d)
  | jnz a b => exact commit_alike hs (jumpIf_alike hs (fun v => !isZero v) a b)
  | jz a b => exact commit_alike hs (jumpIf_alike hs isZero a b)
  | inp d =>
    refine commit_alike hs ?_
    rw [writeAddr_of_alike hs]
    exact .bind _ fun d1 => .ok (takeInput_alike hs d1)
  | out a =>
    refine commit_alike hs ?_
    rw [readOperand_of_alike hs]
    exact .bind _ fun v1 => .ok ((hs.advance 2).endRun _)
  | arb a =>
    refine commit_alike hs ?_
    rw [readOperand_of_alike hs, hs.core.rb_eq]
    exact .bind _ fun v1 => .ok ((hs.setRb _).advance 2)
  | hlt => exact ⟨_, _, rfl, rfl, (hs.setRunState _).endRun _⟩

theorem runInstr_alike : ∃ t t', s.runInstr = .next t ∧ s'.runInstr = .next t' ∧ t.Alike t' := by
  rw [State.runInstr, State.runInstr, fetchInstr_congr hs.core.cfg_eq hs.core.ip_eq hs.core.mem_eq]
  cases fetchInstr s' with
  | error f => exact ⟨_, _, rfl, rfl, hs.faultWith f⟩
  | ok i => exact exec_alike hs i

end

/-- Settles O43: an executing machine's step is its instruction, which does the same on machines alike. -/
theorem coreStepIgnoresTheHost : Obligations.CoreStepIgnoresTheHost := by
  intro s s' t t' hcore hs hs' h h'
  obtain ⟨u, u', hu, hu', halike⟩ := runInstr_alike ⟨hcore, hs.1.trans hs'.1.symm⟩
  rw [step_executing hs, hu] at h
  rw [step_executing hs', hu'] at h'
  cases h
  cases h'
  exact ⟨halike.core, halike.busy⟩

/-! ## Whole run transactions (R171, R172) -/

theorem transaction_succ {k : Nat} {s t : State} (hb : s.busy = true)
    (h : State.transaction (k + 1) s = some t) : ∃ u, step s = .next u ∧ State.transaction k u = some t := by
  obtain ⟨u, hu⟩ := everyStepHasANextState s
  rw [State.transaction, if_pos hb, hu] at h
  exact ⟨u, hu, h⟩

theorem transaction_idle {k : Nat} {s : State} (hb : s.busy = false) : State.transaction k s = some s := by
  cases k <;> simp [State.transaction, hb]

/-- Under any fuel a run transaction that ends and that no reset cuts ends with one outcome. -/
theorem transaction_endsWith {k : Nat} {s t : State} (hb : s.busy = true) (hu : s.uncut = true)
    (h : State.transaction k s = some t) : t.requests = s.requests ∧ ∃ o, s.EndsWith o t := by
  induction k generalizing s with
  | zero => simp [State.transaction, hb] at h
  | succ k ih =>
    obtain ⟨u, hstep, h⟩ := transaction_succ hb h
    have hl : s.LoopsWith s.requests := ⟨hb, .inl ⟨hu, rfl⟩⟩
    have hrequests := step_loops_requests hl hstep
    rcases step_loops_goesOn_or_ends hl hstep with hgo | ⟨o, hend⟩
    · have hu' : u.uncut = true := by rw [State.uncut, hrequests, ← State.uncut, hu]
      obtain ⟨hrequests', o, hend⟩ := ih (hgo.busy.trans hb) hu' h
      exact ⟨hrequests'.trans hrequests, o, hend.busy, hend.runState, hgo.replies ▸ hend.replies⟩
    · rw [transaction_idle hend.busy] at h
      cases h
      exact ⟨hrequests, o, hend⟩

/-- Settles O46: the run state that an outcome leaves is the table of R172. -/
theorem runEndsWithExactlyOneOutcome : Obligations.RunEndsWithExactlyOneOutcome := by
  intro k s t hb hu h
  obtain ⟨hrequests, o, hidle, hr, hreplies⟩ := transaction_endsWith hb hu h
  refine ⟨hidle, hrequests, o, hreplies, ?_⟩
  cases o <;> exact hr

/-! ## Resumption (R178) -/

/-- IN with one Word queued stores it and goes on behind itself. -/
theorem step_inp_queued {s : State} {ws rest : List Word} {d : Operand} {d1 : Nat} {v : Word} (hs : s.Executing)
    (hws : s.Holds s.ip ws) (e : decode ws = .ok (.inp d, rest)) (hd : writeAddr s 1 d = .ok d1) (hq : s.inq = [v]) :
    ∃ t, step s = .next t ∧ t.mem.read d1 = v ∧ t.inq = [] ∧ t.ip = s.ip + 2 := by
  obtain ⟨t, ht, hread, -, hframe⟩ := inTakesTheHeadOfTheQueue s d d1 v [] hd hq
  have hstep := (stepRunsTheDecodedInstruction s ws rest _ hws e).1 hs
  exact ⟨t, hstep.trans ht, hread, by rw [hframe], by rw [hframe]⟩

/-- Settles O47: a suspension ends the run on the core that the next `Run()` starts from, so the instruction at `ip` is
run there as it would have been. -/
theorem resumptionIsExact : Obligations.ResumptionIsExact := by
  refine ⟨fun s ws rest a v1 rs hs hq hws e ha => ?out, fun s ws rest d d1 v rs hs hq hws e hd hempty hroom => ?inp,
    fun s t rs hs hq h hb _ => ?any⟩
  case out =>
    have hstep := (stepRunsTheDecodedInstruction s ws rest _ hws e).1 hs
    rw [exec_out_of_read ha] at hstep
    refine ⟨(s.advance 2).endRun (.output v1), hstep, rfl, ?_⟩
    rw [hs.1]
    exact step_host (s := (s.advance 2).endRun (.output v1)) rfl hq
  case inp =>
    have hstep := (stepRunsTheDecodedInstruction s ws rest _ hws e).1 hs
    rw [exec_inp_of_writeAddr hd, takeInput_nil hempty] at hstep
    have hpush := (pushAppendsWhenThereIsRoom (s.endRun .needsInput) v (.run :: rs) rfl hq).1
      (fun n hn => by rw [State.endRun_inq, hempty]; exact hroom n hn)
    rw [State.endRun_inq, hempty, List.nil_append, State.endRun_replies, List.append_assoc] at hpush
    refine ⟨_, _, { s with inq := [v], requests := rs, replies := s.replies ++ [.outcome .needsInput, .accepted] },
      hstep, rfl, hpush, ?_, rfl, fun hu => ?_⟩
    · rw [hs.1]
      exact (step_host rfl rfl).trans rfl
    · exact step_inp_queued ⟨hs.1, hs.2.1, hu⟩ hws e hd rfl
  case any =>
    have hrequests : t.requests = .run :: rs := (step_loops_requests hs.loops h).trans hq
    exact ⟨_, step_host hb hrequests, ⟨rfl, rfl, rfl, rfl, rfl, rfl⟩, rfl, rfl, rfl⟩

end Sys2Proof.Machine
end
